-- ==== Sys2Proof/Word.lean ====
section
/-! DEFINITION. The bit-vector types of CEF-CORE's host-visible words and fields (10_state.md R25, R34, R36; 20_memory.md R61). -/

namespace Sys2Proof

/-- A host-visible register, a command word, a bus data word (R25, R91). -/
abbrev Word := BitVec 32

/-- A 16-bit unsigned slot or configuration field (R36 to R38). -/
abbrev Half := BitVec 16

/-- A 4-bit field: OP, INST, STATUS.CODE, LAST_OP, LAST_INST (R34, R91). -/
abbrev Nibble := BitVec 4

/-- A byte address of the host register space (R61, R62). -/
abbrev Addr := BitVec 15

/-- One byte lane of a coefficient word (R69). -/
abbrev Byte := BitVec 8

end Sys2Proof
end

