-- ==== Sys2Proof/Config.lean ====
section
/-! DEFINITION. What an implementation of CEF-CORE fixes: the parameters of 00_scope.md section 3, their legal ranges, the
configurations the model refuses (R8, P8), and the free values (R263, R264). -/

namespace Sys2Proof

/-- The implementation parameters (00_scope.md section 3), each inside the range its rule allows. A value of this type
cannot be out of range: `Config.configure` is how one is built from unchecked numbers. -/
structure Params where
  /-- W, the Sample width in bits (R10). -/
  sampleBits : Nat
  /-- A, the Accumulator and Coefficient width in bits (R12). -/
  accBits : Nat
  /-- NUM_INST, the number of slots (R14). -/
  numInst : Nat
  /-- HIST_CAP, history words per slot (R15). -/
  histCap : Nat
  /-- COEF_DEPTH, words of coefficient RAM (R16). -/
  coefDepth : Nat
  sampleBits_ok : 2 ≤ sampleBits ∧ sampleBits ≤ 16
  accBits_ok : 2 * sampleBits ≤ accBits ∧ accBits ≤ 32
  numInst_ok : 1 ≤ numInst ∧ numInst ≤ 16
  histCap_ok : 1 ≤ histCap ∧ histCap ≤ 4096
  coefDepth_ok : 1 ≤ coefDepth ∧ coefDepth ≤ 4096
deriving DecidableEq, Repr

namespace Config

/-- The numeric configurations the source names (00_scope.md R8). -/
inductive NumericFormat where
  | fixedPoint
  | floatingPoint
deriving DecidableEq, Repr

/-- A configuration request, before any check. -/
structure Raw where
  format : NumericFormat
  sampleBits : Nat
  accBits : Nat
  numInst : Nat
  histCap : Nat
  coefDepth : Nat
deriving DecidableEq, Repr

/-- Why a configuration is refused before running. Safe: nothing runs. -/
inductive Reject where
  /-- R8, U4: a floating-point configuration is refused, not given a meaning. -/
  | floatingPoint
  /-- P8: W outside 2..16 (R10). -/
  | sampleBits
  /-- P8: A outside 2W..32 (R12). -/
  | accBits
  /-- P8: NUM_INST outside 1..16 (R14). -/
  | numInst
  /-- P8: HIST_CAP outside 1..4096 (R15). -/
  | histCap
  /-- P8: COEF_DEPTH outside 1..4096 (R16). -/
  | coefDepth
deriving DecidableEq, Repr

/-- The model takes a configuration only if it is fixed-point with every parameter in range (R8, P8). -/
def configure (r : Raw) : Except Reject Params :=
  if r.format = .floatingPoint then .error .floatingPoint
  else if hw : 2 ≤ r.sampleBits ∧ r.sampleBits ≤ 16 then
    if ha : 2 * r.sampleBits ≤ r.accBits ∧ r.accBits ≤ 32 then
      if hn : 1 ≤ r.numInst ∧ r.numInst ≤ 16 then
        if hh : 1 ≤ r.histCap ∧ r.histCap ≤ 4096 then
          if hc : 1 ≤ r.coefDepth ∧ r.coefDepth ≤ 4096 then
            .ok ⟨r.sampleBits, r.accBits, r.numInst, r.histCap, r.coefDepth, hw, ha, hn, hh, hc⟩
          else .error .coefDepth
        else .error .histCap
      else .error .numInst
    else .error .accBits
  else .error .sampleBits

/-- CEF-CORE's own parameter values (00_scope.md section 3, column "CEF-CORE"). -/
def cef : Params where
  sampleBits := 16
  accBits := 32
  numInst := 4
  histCap := 64
  coefDepth := 1024
  sampleBits_ok := by decide
  accBits_ok := by decide
  numInst_ok := by decide
  histCap_ok := by decide
  coefDepth_ok := by decide

/-- FREE VALUE (R263, P1; log 2). What the byte at a host address of coefficient RAM holds when nothing has written it
since the reset number `epoch`. No body: no proof can see its value. -/
opaque freeCoefByte : (epoch addr : Nat) → Byte

/-- FREE VALUE (R264, P2; log 4). What history word `j` of slot `s` holds after the reset number `epoch`, before it is
reduced to A bits. No body: no proof can see its value. -/
opaque freeHist : (epoch s j : Nat) → Int

end Config
end Sys2Proof
end

