-- ==== Sys2Proof/Syntax.lean ====
section
/-! DEFINITION. The commands of CEF-CORE: one constructor per row of spec/opcode_table.json (30_encoding.md R94). -/

namespace Sys2Proof

/-- A command. `slot` is the INST field, read as an unsigned integer (R93); WellFormed.lean says which values it has. -/
inductive Instr where
  /-- 0x0 NOP (R117). -/
  | nop
  /-- 0x1 INIT_MA (R161). -/
  | initMa (slot : Nat)
  /-- 0x2 INIT_FIR (R181). -/
  | initFir (slot : Nat)
  /-- 0x3 INIT_BQ (R201). -/
  | initBq (slot : Nat)
  /-- 0x4 INIT_IIR_DF, also the "high-pass" alias (R131). -/
  | initIirDf (slot : Nat)
  /-- 0x5 INIT_IIR_LP (R131). -/
  | initIirLp (slot : Nat)
  /-- 0x6 INIT_IIR_BP (R131). -/
  | initIirBp (slot : Nat)
  /-- 0x7 INIT_IIR_BS (R131). -/
  | initIirBs (slot : Nat)
  /-- 0x8 PROCESS (R121). -/
  | process (slot : Nat)
  /-- 0x9 RELEASE (R123). -/
  | release (slot : Nat)
  /-- 0xA FX_TOFIX (R146). -/
  | fxTofix
  /-- 0xB FX_FROMFIX (R147). -/
  | fxFromfix
  /-- 0xC FX_MUL (R148). -/
  | fxMul
  /-- 0xD FX_NARROW (R149). -/
  | fxNarrow
deriving DecidableEq, Repr

/-- The slot an instance command names; `none` for a no-instance command (R95). -/
def Instr.slot? : Instr → Option Nat
  | .nop => none
  | .initMa k => some k
  | .initFir k => some k
  | .initBq k => some k
  | .initIirDf k => some k
  | .initIirLp k => some k
  | .initIirBp k => some k
  | .initIirBs k => some k
  | .process k => some k
  | .release k => some k
  | .fxTofix => none
  | .fxFromfix => none
  | .fxMul => none
  | .fxNarrow => none

end Sys2Proof
end

