-- ==== Sys2Proof/WellFormed.lean ====
section
/-! DEFINITION. Which terms of Instr are commands: the slot number of an instance command fits the 4-bit INST field
(30_encoding.md R91, R95). A slot number at or above NUM_INST is well-formed: it completes with BAD_INST (R238). -/

namespace Sys2Proof

/-- A slot number fits INST, bits [11:8] (R91). -/
abbrev slotFits (k : Nat) : Prop := k < 16

/-- R95: for an instance opcode INST holds any value 0..15; a no-instance command has no operand in its word. -/
def Instr.wellFormed (i : Instr) : Bool :=
  match i.slot? with
  | some k => decide (slotFits k)
  | none => true

end Sys2Proof
end

