-- ==== Sys2Proof/Decode.lean ====
section
/-! DEFINITION. Command words and commands: the field decoder (30_encoding.md R91, R93, R97), the encoder (R91, R94), and
the mask and match rows of spec/opcode_table.json (R96). The decoder takes the whole 32-bit word of a CMD write: CEF-CORE
fetches no bytes (R79, R92). -/

namespace Sys2Proof

/-! ## The fields of format C (R91) -/

/-- OP, bits [3:0]. -/
def opField (v : Word) : Nibble := v.extractLsb' 0 4

/-- RSV0, bits [7:4]. -/
def rsv0Field (v : Word) : Nibble := v.extractLsb' 4 4

/-- INST, bits [11:8]. -/
def instField (v : Word) : Nibble := v.extractLsb' 8 4

/-- RSV1, bits [31:12]. -/
def rsv1Field (v : Word) : BitVec 20 := v.extractLsb' 12 20

/-! ## Decoding -/

/-- Why a word is illegal (R97). All four have the one effect of R237; the names are the model's (log 12). -/
inductive IllegalReason where
  /-- OP is 0xE or 0xF. -/
  | reservedOpcode
  /-- v[7:4] is not 0. -/
  | rsv0
  /-- v[31:12] is not 0. -/
  | rsv1
  /-- A no-instance opcode with INST not 0. -/
  | instNotZero
deriving DecidableEq, Repr

/-- The command of each opcode (R94), with `k` the INST field as an integer (R93); `none` for the reserved opcodes 0xE
and 0xF. -/
def instrOf (op : Nibble) (k : Nat) : Option Instr :=
  match op.toNat with
  | 0x0 => some .nop
  | 0x1 => some (.initMa k)
  | 0x2 => some (.initFir k)
  | 0x3 => some (.initBq k)
  | 0x4 => some (.initIirDf k)
  | 0x5 => some (.initIirLp k)
  | 0x6 => some (.initIirBp k)
  | 0x7 => some (.initIirBs k)
  | 0x8 => some (.process k)
  | 0x9 => some (.release k)
  | 0xA => some .fxTofix
  | 0xB => some .fxFromfix
  | 0xC => some .fxMul
  | 0xD => some .fxNarrow
  | _ => none

/-- Decoding a command word: R97's illegality conditions, in the order R118 writes them, then the opcode map R94. -/
def decode (v : Word) : Except IllegalReason Instr :=
  match instrOf (opField v) (instField v).toNat with
  | none => .error .reservedOpcode
  | some i =>
    if rsv0Field v ≠ 0 then .error .rsv0
    else if rsv1Field v ≠ 0 then .error .rsv1
    else if i.slot? = none ∧ instField v ≠ 0 then .error .instNotZero
    else .ok i

/-! ## Encoding -/

/-- The opcode of each command (R94). -/
def Instr.opcode : Instr → Nibble
  | .nop => 0x0
  | .initMa _ => 0x1
  | .initFir _ => 0x2
  | .initBq _ => 0x3
  | .initIirDf _ => 0x4
  | .initIirLp _ => 0x5
  | .initIirBp _ => 0x6
  | .initIirBs _ => 0x7
  | .process _ => 0x8
  | .release _ => 0x9
  | .fxTofix => 0xA
  | .fxFromfix => 0xB
  | .fxMul => 0xC
  | .fxNarrow => 0xD

/-- The INST field of each command: its slot number, or 0 (R91). -/
def Instr.instBits (i : Instr) : Nibble :=
  match i.slot? with
  | some k => BitVec.ofNat 4 k
  | none => 0

/-- Format C from its two fields: RSV1, INST, RSV0, OP from bit 31 down, the reserved fields 0 (R91). -/
def commandWord (op inst : Nibble) : Word := (0 : BitVec 20) ++ inst ++ (0 : Nibble) ++ op

/-- The command word of a well-formed command (R91). -/
def encode (i : Instr) : Word := commandWord i.opcode i.instBits

/-! ## The opcode table (R96) -/

/-- A row of spec/opcode_table.json: its opcode, and the match and mask values it gives. -/
structure TableRow where
  opcode : Nibble
  value : Word
  mask : Word
deriving DecidableEq, Repr

/-- The fourteen rows of spec/opcode_table.json, in its order. -/
def opcodeTable : List TableRow :=
  [ ⟨0x0, 0x00000000, 0xFFFFFFFF⟩,   -- NOP
    ⟨0x1, 0x00000001, 0xFFFFF0FF⟩,   -- INIT_MA
    ⟨0x2, 0x00000002, 0xFFFFF0FF⟩,   -- INIT_FIR
    ⟨0x3, 0x00000003, 0xFFFFF0FF⟩,   -- INIT_BQ
    ⟨0x4, 0x00000004, 0xFFFFF0FF⟩,   -- INIT_IIR_DF
    ⟨0x5, 0x00000005, 0xFFFFF0FF⟩,   -- INIT_IIR_LP
    ⟨0x6, 0x00000006, 0xFFFFF0FF⟩,   -- INIT_IIR_BP
    ⟨0x7, 0x00000007, 0xFFFFF0FF⟩,   -- INIT_IIR_BS
    ⟨0x8, 0x00000008, 0xFFFFF0FF⟩,   -- PROCESS
    ⟨0x9, 0x00000009, 0xFFFFF0FF⟩,   -- RELEASE
    ⟨0xA, 0x0000000A, 0xFFFFFFFF⟩,   -- FX_TOFIX
    ⟨0xB, 0x0000000B, 0xFFFFFFFF⟩,   -- FX_FROMFIX
    ⟨0xC, 0x0000000C, 0xFFFFFFFF⟩,   -- FX_MUL
    ⟨0xD, 0x0000000D, 0xFFFFFFFF⟩ ]  -- FX_NARROW

/-- R96: the word selects this row. -/
def TableRow.selects (r : TableRow) (v : Word) : Bool := v &&& r.mask == r.value

/-! ## The table's own numbering of a row's bits -/

/-- The command word whose bits below `nbits` are those of `w` and whose other bits are 0. -/
def tableWord (nbits w : Nat) : Word := BitVec.ofNat 32 (w % 2 ^ nbits)

/-- The instruction the decoder reads from an opcode-table word. -/
def decodeTableWord (nbits w : Nat) : Option Instr :=
  match decode (tableWord nbits w) with
  | .ok i => some i
  | .error _ => none

end Sys2Proof
end

