-- ==== Sys2Proof/Machine/State.lean ====
section
/-! DEFINITION. Everything the spec gives the machine (10_state.md, 20_memory.md R63, 70_reset_and_hazards.md R261), the host
and the schedule as plain data, the reasons a step can stop, and the machine right after reset (R262). -/

namespace Sys2Proof.Machine

/-! ## Status and error flags -/

/-- The status codes of 60_exceptions.md R231; codes 7 to 15 are never produced, so they are no constructor. -/
inductive Code where
  | ok
  | invalidOutput
  | invalidParam
  | notImplemented
  | notBound
  | badInst
  | illegalCmd
deriving DecidableEq, Repr

/-- The sticky flags of ERR (R35). -/
structure ErrFlags where
  illegal : Bool
  busyWr : Bool
  bus : Bool
deriving DecidableEq, Repr

/-! ## Instance slots -/

/-- What a slot is constructed as (R36). -/
inductive Kind where
  | unbound
  | ma
  | fir
  | bq
deriving DecidableEq, Repr

/-- The architectural fields of an instance slot (R36) with its history file (R44). An Accumulator is an integer (R12);
the invariant of Safety.lean says that it fits A bits. -/
structure Slot where
  kind : Kind
  n : Half
  cbase : Half
  thr : Half
  cnt : Half
  widx : Half
  sum : Int
  hist : List Int
deriving DecidableEq, Repr

/-- The writable fields of INSTs_CFG (R37) and INSTs_COEF (R38). -/
structure InstRegs where
  count : Half
  settle2 : Bool
  base : Half
deriving DecidableEq, Repr

/-! ## Coefficient RAM -/

/-- Coefficient RAM as the bytes written since reset, each at its host address, strictly rising (R67, R69; log 3).
Machine/Ops.lean gives its operations and what an unlisted byte reads as. -/
abbrev Memory := List Host.Cell

/-! ## The host and the schedule -/

/-- The size of a bus access (R61): 1, 2 or 4 bytes, or the fourth code of the size signal. -/
inductive Size where
  | byte
  | half
  | word
  /-- size[1:0] = 3, "treated as a non-32-bit access" (R61). -/
  | other
deriving DecidableEq, Repr

/-- One operation of the host: a bus transaction (R61), the `poll` of R100, or driving the reset input (R261). -/
inductive HostOp where
  | read (addr : Addr) (size : Size)
  | write (addr : Addr) (size : Size) (data : Word)
  | poll
  | rstN (level : Bool)
deriving DecidableEq, Repr

/-- Whose step comes next (R111; log 7). -/
inductive Turn where
  | host
  | engine
deriving DecidableEq, Repr

/-! ## The state -/

/-- The machine. The first block is the spec's own state, the second the model's: the input from outside, the schedule,
what the host has read, and the argument of the free values. -/
structure State where
  /-- The implementation parameters, shown in PARAM and PARAM2 (R28, R29). -/
  params : Params
  /-- The level of the reset input rst_n (R261). -/
  rstN : Bool
  /-- OPA (R31). -/
  opa : Word
  /-- OPB (R32). -/
  opb : Word
  /-- RESULT (R33). -/
  result : Word
  /-- STATUS.CODE (R34). -/
  code : Code
  /-- STATUS.LAST_OP (R34). -/
  lastOp : Nibble
  /-- STATUS.LAST_INST (R34). -/
  lastInst : Nibble
  /-- ERR (R35). -/
  err : ErrFlags
  /-- The pending command (R46). -/
  pend : Option Word
  /-- INSTs_CFG and INSTs_COEF of every slot (R37, R38). -/
  instRegs : List InstRegs
  /-- The instance slots (R36, R44). -/
  slots : List Slot
  /-- Coefficient RAM (R45). -/
  coefRam : Memory
  /-- MODEL'S OWN: how many times rst_n has put the reset values in (log 5). -/
  epoch : Nat
  /-- MODEL'S OWN: what the host has still to do (log 6). -/
  host : List HostOp
  /-- MODEL'S OWN: whose turns come next (log 7). -/
  sched : List Turn
  /-- MODEL'S OWN: what the host's reads have returned, oldest first (R275; log 6). -/
  reads : List Word
deriving DecidableEq, Repr

/-! ## Reasons to stop -/

/-- What stops the machine. -/
inductive Fault where
  /-- Raised by the host's turn (Turns.lean) for a bus transaction while rst_n is 0: R261 gives such a transaction no step
  (P7, `stuck`). Safe: the model stops where a host must not go. -/
  | transactionInReset
deriving DecidableEq, Repr

/-- Why an instruction has no meaning. -/
inductive Refusal where
  /-- Raised by an arm of exec whose instruction has no meaning yet; no arm does so now. Safe. -/
  | notModelled (mnemonic : String)
deriving DecidableEq, Repr

/-! ## Reset (R262) -/

/-- A slot after reset: UNBOUND, every field 0, the history words free (R264), each reduced to A bits. -/
def Slot.afterReset (p : Params) (epoch s : Nat) : Slot where
  kind := .unbound
  n := 0
  cbase := 0
  thr := 0
  cnt := 0
  widx := 0
  sum := 0
  hist := (List.range p.histCap).map fun j => Int.bmod (Config.freeHist epoch s j) (2 ^ p.accBits)

/-- INSTs_CFG and INSTs_COEF after reset (R37, R38). -/
def InstRegs.afterReset : InstRegs where
  count := 0
  settle2 := false
  base := 0

/-- Every field at its reset value (R262), with rst_n at 1 and nothing for the host to do. -/
def State.resetOf (p : Params) (epoch : Nat) : State where
  params := p
  rstN := true
  opa := 0
  opb := 0
  result := 0
  code := .ok
  lastOp := 0
  lastInst := 0
  err := ⟨false, false, false⟩
  pend := none
  instRegs := List.replicate p.numInst InstRegs.afterReset
  slots := (List.range p.numInst).map (Slot.afterReset p epoch)
  coefRam := []
  epoch := epoch
  host := []
  sched := []
  reads := []

/-- CEF-CORE right after reset. -/
def State.reset : State := State.resetOf Config.cef 0

end Sys2Proof.Machine
end

