-- ==== Sys2Proof/Machine/Operands.lean ====
section
/-! DEFINITION. The width operators of 00_scope.md R19, the shifts and the division of R20, and the assembly of every
operand a command reads (30_encoding.md R93, 41_fixed_point_scaler.md R145). -/

namespace Sys2Proof.Machine

/-! ## Width operators (R19) and integer operations (R20) -/

/-- wrap_N(v): the integer congruent to v modulo 2^N in the N-bit two's-complement range (R19). -/
def wrap (n : Nat) (v : Int) : Int := Int.bmod v (2 ^ n)

/-- sext_N(b): the low N bits of a word read as two's complement (R19). -/
def sext (n : Nat) (b : Word) : Int := wrap n (b.toNat : Int)

/-- word32(v): the 32-bit pattern of wrap_32(v) (R19). -/
def word32 (v : Int) : Word := BitVec.ofInt 32 v

/-- asr(v, s) = floor(v / 2^s) (R20); `/` rounds to minus infinity for the positive divisor 2^s. -/
def asr (v : Int) (s : Nat) : Int := v / 2 ^ s

/-- shl(v, s) = v * 2^s (R20). -/
def shl (v : Int) (s : Nat) : Int := v * 2 ^ s

/-- tdiv(a, b) for b > 0: the quotient rounded toward zero (R20). -/
def tdiv (a b : Int) : Int := Int.tdiv a b

/-! ## Reading a slot's registers and fields -/

/-- What reading a slot that does not exist gives. No command and no bus access reads one (R43, R95); it makes the read
total (log 13). -/
def Slot.absent : Slot where
  kind := .unbound
  n := 0
  cbase := 0
  thr := 0
  cnt := 0
  widx := 0
  sum := 0
  hist := []

/-- INSTs_CFG and INSTs_COEF of slot `k` (R37, R38; log 13). -/
def State.instReg (s : State) (k : Nat) : InstRegs := s.instRegs.getD k InstRegs.afterReset

/-- slot[k] (R21, R36; log 13). -/
def State.slot (s : State) (k : Nat) : Slot := s.slots.getD k Slot.absent

/-! ## Operands (R93) -/

/-- The input Sample of PROCESS: x = sext_W(OPA[W-1:0]) (R93, R121). -/
def State.sampleOperand (s : State) : Int := sext s.params.sampleBits s.opa

/-- Operand A of the scaler: a = sext_A(OPA[A-1:0]) (R145). -/
def State.operandA (s : State) : Int := sext s.params.accBits s.opa

/-- Operand B of the scaler: b = sext_A(OPB[A-1:0]) (R145). -/
def State.operandB (s : State) : Int := sext s.params.accBits s.opb

/-- count = zext_16(INSTs_CFG[15:0]) (R93, R119). -/
def State.countOperand (s : State) (k : Nat) : Nat := (s.instReg k).count.toNat

/-- settle2 = INSTs_CFG[16] (R93, R119). -/
def State.settle2Operand (s : State) (k : Nat) : Bool := (s.instReg k).settle2

/-- base = zext_16(INSTs_COEF[15:0]) (R93, R119). -/
def State.baseOperand (s : State) (k : Nat) : Nat := (s.instReg k).base.toNat

end Sys2Proof.Machine
end

