-- ==== Sys2Proof/Machine/FixedPoint.lean ====
section
/-! DEFINITION. The four fixed-point primitives every filter rule uses (00_scope.md R22; 41_fixed_point_scaler.md R141 to
R144). Overflow wraps, nothing saturates (R150). -/

namespace Sys2Proof

/-- F = W - 1, the fractional-bit count (R11). -/
def Params.fracBits (p : Params) : Nat := p.sampleBits - 1

namespace Machine

/-- wrap_A. -/
def wrapA (p : Params) (v : Int) : Int := wrap p.accBits v

/-- to_fixed(n) = wrap_A(shl(n, F)) (R141). -/
def toFixed (p : Params) (n : Int) : Int := wrapA p (shl n p.fracBits)

/-- from_fixed(v) = asr(v, F) (R142). -/
def fromFixed (p : Params) (v : Int) : Int := asr v p.fracBits

/-- mulq(c, v) = from_fixed(wrap_A(c * v)): the product is reduced to A bits before the shift (R143). -/
def mulq (p : Params) (c v : Int) : Int := fromFixed p (wrapA p (c * v))

/-- narrow(v) = wrap_W(v) (R144). -/
def narrow (p : Params) (v : Int) : Int := wrap p.sampleBits v

end Machine
end Sys2Proof
end

