-- ==== Sys2Proof/Machine/Flags.lean ====
section
/-! DEFINITION. The status indications of CEF-CORE (10_state.md R47): STATUS and its code numbers, the sticky ERR flags,
BUSY, and the derived predicate settled(s). -/

namespace Sys2Proof.Machine

/-- The number of each status code (R231). -/
def Code.number : Code → Nibble
  | .ok => 0
  | .invalidOutput => 1
  | .invalidParam => 2
  | .notImplemented => 3
  | .notBound => 4
  | .badInst => 5
  | .illegalCmd => 6

/-- The code of a PROCESS step's validity bit (R121). -/
def Code.ofValid (valid : Bool) : Code := if valid then .ok else .invalidOutput

/-- One flag as the bit of a word. -/
def bit (b : Bool) : BitVec 1 := BitVec.ofBool b

/-- BUSY: a command is pending (R46, R112). -/
def State.busy (s : State) : Bool := s.pend.isSome

/-- The STATUS word: [0] BUSY, [7:4] CODE, [11:8] LAST_OP, [15:12] LAST_INST, the rest 0 (R34). -/
def State.statusWord (s : State) : Word :=
  (0 : Half) ++ s.lastInst ++ s.lastOp ++ s.code.number ++ (0 : BitVec 3) ++ bit s.busy

/-- The ERR word: [0] ILLEGAL, [1] BUSY_WR, [2] BUS, the rest 0 (R35). -/
def ErrFlags.word (e : ErrFlags) : Word :=
  (0 : BitVec 29) ++ bit e.bus ++ bit e.busyWr ++ bit e.illegal

/-- A host write to ERR: writing 1 to a flag's bit clears it, writing 0 leaves it (R26, R35). Such a write is never
dropped, so it is never at the same time an event that sets a flag (log 14). -/
def ErrFlags.writeOneToClear (e : ErrFlags) (v : Word) : ErrFlags where
  illegal := e.illegal && !v.getLsbD 0
  busyWr := e.busyWr && !v.getLsbD 1
  bus := e.bus && !v.getLsbD 2

/-- settled(s) (R36). -/
def Slot.settled (sl : Slot) : Bool :=
  match sl.kind with
  | .unbound => false
  | .ma => sl.cnt == sl.n
  | .fir => true
  | .bq => sl.cnt == sl.thr

/-- INSTs_STATE.KIND (R36, R39). -/
def Kind.number : Kind → BitVec 3
  | .unbound => 0
  | .ma => 1
  | .fir => 2
  | .bq => 3

end Sys2Proof.Machine
end

