-- ==== Sys2Proof/Machine/Ops.lean ====
section
/-! DEFINITION. The named operations over coefficient RAM, slots and registers, the completion of a command (the spec's
`raise`, R21), and the two outcomes of a construction (R120). -/

namespace Sys2Proof.Machine

/-! ## Coefficient RAM -/

/-- The byte written at an address, if one was written since reset. -/
def Memory.find? : Memory → Nat → Option Byte
  | [], _ => none
  | (c, d) :: m, a => if c = a then some d else Memory.find? m a

/-- Writing one byte keeps the list strictly rising. -/
def Memory.writeByte : Memory → Nat → Byte → Memory
  | [], a, b => [(a, b)]
  | (c, d) :: m, a, b =>
    if a < c then (a, b) :: (c, d) :: m
    else if a = c then (a, b) :: m
    else (c, d) :: Memory.writeByte m a b

/-- Byte k of a word: bits [8k+7:8k] (R69). -/
def byteLane (v : Word) (k : Nat) : Byte := v.extractLsb' (8 * k) 8

/-- The host address of coefficient word j (R67). -/
def coefAddr (j : Nat) : Nat := 0x4000 + 4 * j

/-- Writing a whole word at a byte address, byte k at address a + k (R69). -/
def Memory.writeWord (m : Memory) (a : Nat) (v : Word) : Memory :=
  (((m.writeByte a (byteLane v 0)).writeByte (a + 1) (byteLane v 1)).writeByte (a + 2) (byteLane v 2)).writeByte (a + 3)
    (byteLane v 3)

/-- What a byte of coefficient RAM reads as. THE ONE DEFINITION of an unlisted address: a free value (R263; log 2). -/
def State.byteAt (s : State) (a : Nat) : Byte := (s.coefRam.find? a).getD (Config.freeCoefByte s.epoch a)

/-- The word stored at a byte address (R69). -/
def State.wordAt (s : State) (a : Nat) : Word :=
  s.byteAt (a + 3) ++ s.byteAt (a + 2) ++ s.byteAt (a + 1) ++ s.byteAt a

/-- MemRead(j, 1): coefficient word j as an A-bit value (R21, R45). -/
def State.coef (s : State) (j : Nat) : Int := sext s.params.accBits (s.wordAt (coefAddr j))

/-- MemWrite(j, 1, sext_A(v[A-1:0])), the effect of a COEF window write (R67). The A-bit value is stored sign-extended in
its four byte lanes, so that the lanes are those a read of the word returns (R67, R69; log 10). -/
def State.writeCoef (s : State) (j : Nat) (v : Word) : State :=
  { s with coefRam := s.coefRam.writeWord (coefAddr j) (word32 (sext s.params.accBits v)) }

/-- The canonical form of coefficient RAM: addresses strictly rising, each a byte of the COEF window (R64; log 3). -/
def Memory.wf (p : Params) (m : Memory) : Bool :=
  decide (m.Pairwise fun x y => x.1 < y.1) && m.all fun c => decide (coefAddr 0 ≤ c.1 ∧ c.1 < coefAddr p.coefDepth)

/-! ## Slots and registers -/

/-- slot[k] <- v, with its history (R21). -/
def State.setSlot (s : State) (k : Nat) (v : Slot) : State := { s with slots := s.slots.set k v }

/-- Writing INSTs_CFG or INSTs_COEF fields of slot k. -/
def State.setInstReg (s : State) (k : Nat) (v : InstRegs) : State := { s with instRegs := s.instRegs.set k v }

/-- x[RESULT] <- word32(v) (R33). -/
def State.setResult (s : State) (v : Int) : State := { s with result := word32 v }

/-! ## Sticky flags (R35) -/

/-- A command completed with ILLEGAL_CMD. -/
def State.flagIllegal (s : State) : State := { s with err := { s.err with illegal := true } }

/-- A host write was dropped because a command is pending (R115). -/
def State.flagBusyWr (s : State) : State := { s with err := { s.err with busyWr := true } }

/-- A host write was dropped as unmapped, read-only, not 32 bits wide or misaligned (R72). -/
def State.flagBus (s : State) : State := { s with err := { s.err with bus := true } }

/-! ## Completion

CEF-CORE has no traps (R242): the one way a command ends, error or not, is `complete(code)`, which the spec names as its
`raise` (R21). Nothing is saved, no mode changes, no handler runs, and there is no return (R243). -/

/-- complete(code) for command word v: CODE, LAST_OP and LAST_INST are written and the command is no longer pending
(R116). -/
def State.complete (s : State) (v : Word) (code : Code) : State :=
  { s with code := code, lastOp := opField v, lastInst := instField v, pend := none }

/-- The completion of an illegal command word (R118, R237). -/
def State.completeIllegal (s : State) (v : Word) : State := s.flagIllegal.complete v .illegalCmd

/-- The check every instance command makes first: a slot number at or above NUM_INST completes with BAD_INST (R118,
R238); otherwise `body` runs. -/
def State.onSlot (s : State) (v : Word) (k : Nat) (body : State → State) : State :=
  if s.params.numInst ≤ k then s.complete v .badInst else body s

/-! ## Construction (R119, R120) -/

/-- The slot a successful construction makes: bound fields a snapshot of the operands, counters, sum and all HIST_CAP
history words 0 (R120). -/
def Slot.constructed (p : Params) (kind : Kind) (count base thr : Nat) : Slot where
  kind := kind
  n := BitVec.ofNat 16 count
  cbase := if kind = .ma then 0 else BitVec.ofNat 16 base
  thr := BitVec.ofNat 16 thr
  cnt := 0
  widx := 0
  sum := 0
  hist := List.replicate p.histCap 0

/-- The slot a failed construction or a RELEASE leaves: UNBOUND, every field 0, the history words as they were (R120,
R123). -/
def Slot.unbind (sl : Slot) : Slot where
  kind := .unbound
  n := 0
  cbase := 0
  thr := 0
  cnt := 0
  widx := 0
  sum := 0
  hist := sl.hist

/-- construct(s, kind, count, base, thr) (R120). -/
def State.construct (s : State) (v : Word) (k : Nat) (kind : Kind) (count base thr : Nat) : State :=
  (s.setSlot k (Slot.constructed s.params kind count base thr)).complete v .ok

/-- fail(s) (R120). -/
def State.failConstruct (s : State) (v : Word) (k : Nat) : State :=
  (s.setSlot k (s.slot k).unbind).complete v .invalidParam

/-- The part every INIT_* shares: construct if the legality condition of R235 holds, fail otherwise. -/
def State.constructIf (s : State) (v : Word) (k : Nat) (legal : Bool) (kind : Kind) (count base thr : Nat) : State :=
  if legal then s.construct v k kind count base thr else s.failConstruct v k

/-! ## Ending a PROCESS (R121) -/

/-- What a per-kind step function returns (R124): the slot's new fields and history, the output Sample, validity. -/
structure StepResult where
  slot : Slot
  y : Int
  valid : Bool
deriving DecidableEq, Repr

/-- RESULT <- word32(y); complete(valid ? OK : INVALID_OUTPUT); the slot takes its new fields (R121). -/
def State.finishProcess (s : State) (v : Word) (k : Nat) (r : StepResult) : State :=
  ((s.setSlot k r.slot).setResult r.y).complete v (Code.ofValid r.valid)

end Sys2Proof.Machine
end

