-- ==== Sys2Proof/Machine/Biquad.lean ====
section
/-! DEFINITION. The iir_biquad_cascade (44_iir_biquad_cascade.md): INIT_BQ and the per-sample step of a BQ slot. -/

namespace Sys2Proof.Machine

/-- R235, row INIT_BQ: the count is not 0, two history words per section fit, the sections lie inside coefficient RAM. -/
def legalBq (p : Params) (count base : Nat) : Bool :=
  count != 0 && decide (2 * count ≤ p.histCap) && decide (base + 6 * count ≤ p.coefDepth)

/-- The warm-up threshold: M, or 2M when SETTLE2 is 1 (R203). -/
def threshold (settle2 : Bool) (count : Nat) : Nat := if settle2 then 2 * count else count

/-- init_bq(s) (R201). -/
def execInitBq (k : Nat) (s : State) : Host.Outcome State Fault Refusal :=
  .next (s.onSlot (encode (.initBq k)) k fun s =>
    let count := s.countOperand k
    let base := s.baseOperand k
    s.constructIf (encode (.initBq k)) k (legalBq s.params count base) .bq count base
      (threshold (s.settle2Operand k) count))

/-- One section's output: the source's step list exactly (R205, R206). `c` reads the section's six coefficients b0, b1,
b2, a0, a1, a2 (R202); word 3, a0, is never read. -/
def sectionOut (p : Params) (c : Nat → Int) (u d0 d1 : Int) : Int :=
  let w := wrapA p (mulq p (c 0) u + mulq p (c 1) d0 + mulq p (c 2) d1)
  wrapA p (w - mulq p (c 4) d0 - mulq p (c 5) d1)

/-- Section k run on input u: d1 <- d0, d0 <- y, and y is handed on as an Accumulator, not narrowed (R205, R207).
`coef` reads the slot's coefficient words from its base up. -/
def runSection (p : Params) (coef : Nat → Int) (hu : List Int × Int) (k : Nat) : List Int × Int :=
  let d0 := hu.1.getD (2 * k) 0
  let d1 := hu.1.getD (2 * k + 1) 0
  let y := sectionOut p (fun i => coef (6 * k + i)) hu.2 d0 d1
  ((hu.1.set (2 * k + 1) d0).set (2 * k) y, y)

/-- Sections 0 .. m-1 in list order: the delay words after them and the last section's output (R202, R205). -/
def runSections (p : Params) (coef : Nat → Int) (hist : List Int) (x : Int) : Nat → List Int × Int
  | 0 => (hist, x)
  | m + 1 => runSection p coef (runSections p coef hist x m) m

/-- bq_step(s, x) (R205): validity is the counter before this sample (R208), then the counter rises to at most T (R209). -/
def bqStep (p : Params) (coef : Nat → Int) (sl : Slot) (x : Int) : StepResult :=
  let out := runSections p (fun i => coef (sl.cbase.toNat + i)) sl.hist x sl.n.toNat
  { slot := { sl with
      hist := out.1
      cnt := BitVec.ofNat 16 (min (sl.cnt.toNat + 1) sl.thr.toNat) }
    y := narrow p out.2
    valid := sl.cnt == sl.thr }

end Sys2Proof.Machine
end

