-- ==== Sys2Proof/Machine/Fir.lean ====
section
/-! DEFINITION. The fir_filter (43_fir_filter.md): INIT_FIR and the per-sample step of a FIR slot. -/

namespace Sys2Proof.Machine

/-- R235, row INIT_FIR: the count is in 1..HIST_CAP and the taps lie inside coefficient RAM. -/
def legalFir (p : Params) (count base : Nat) : Bool :=
  count != 0 && decide (count ≤ p.histCap) && decide (base + count ≤ p.coefDepth)

/-- init_fir(s) (R181). -/
def execInitFir (k : Nat) (s : State) : Host.Outcome State Fault Refusal :=
  .next (s.onSlot (encode (.initFir k)) k fun s =>
    let count := s.countOperand k
    let base := s.baseOperand k
    s.constructIf (encode (.initFir k)) k (legalFir s.params count base) .fir count base 0)

/-- Steps 1 and 2 of fir_step: acc <- mulq(tap 0, x), then for i = 1 .. m: acc <- wrap_A(acc + mulq(tap i, H[i-1]))
(R182); each term is rescaled before it is added (R151). -/
def firAcc (p : Params) (tap : Nat → Int) (hist : List Int) (x : Int) : Nat → Int
  | 0 => mulq p (tap 0) x
  | m + 1 => wrapA p (firAcc p tap hist x m + mulq p (tap (m + 1)) (hist.getD m 0))

/-- Step 3's shift: for j = m downto 1: H[j] <- H[j-1] (R182). -/
def shiftUp (hist : List Int) : Nat → List Int
  | 0 => hist
  | m + 1 => shiftUp (hist.set (m + 1) (hist.getD m 0)) m

/-- Step 3: shift the N - 1 words of the delay line, and insert x at position 0 if there is one (R182, R191). -/
def delayIn (taps : Nat) (hist : List Int) (x : Int) : List Int :=
  if 2 ≤ taps then (shiftUp hist (taps - 2)).set 0 x else hist

/-- fir_step(s, x) (R182); `coef` reads coefficient RAM. Always valid (R184). -/
def firStep (p : Params) (coef : Nat → Int) (sl : Slot) (x : Int) : StepResult :=
  let taps := sl.n.toNat
  let acc := firAcc p (fun i => coef (sl.cbase.toNat + i)) sl.hist x (taps - 1)
  { slot := { sl with
      hist := delayIn taps sl.hist x
      cnt := BitVec.ofNat 16 (min (sl.cnt.toNat + 1) (taps - 1)) }
    y := narrow p acc
    valid := true }

end Sys2Proof.Machine
end

