-- ==== Sys2Proof/Machine/MovingAverage.lean ====
section
/-! DEFINITION. The moving_average_engine (42_moving_average.md): INIT_MA and the per-sample step of an MA slot. -/

namespace Sys2Proof.Machine

/-- R235, row INIT_MA: the count is in 1..HIST_CAP. -/
def legalMa (p : Params) (count : Nat) : Bool := count != 0 && decide (count ≤ p.histCap)

/-- init_ma(s) (R161). -/
def execInitMa (k : Nat) (s : State) : Host.Outcome State Fault Refusal :=
  .next (s.onSlot (encode (.initMa k)) k fun s =>
    let count := s.countOperand k
    s.constructIf (encode (.initMa k)) k (legalMa s.params count) .ma count 0 0)

/-- ma_step(s, x) (R162). The divisor is the fill count after step 2 and so at least 1 (R165); n is at least 1 (R161). -/
def maStep (p : Params) (sl : Slot) (x : Int) : StepResult :=
  let size := sl.n.toNat
  let i := sl.widx.toNat
  let added := wrapA p (sl.sum + x)                                                  -- step 1
  let full := sl.cnt == sl.n
  let sum := if full then wrapA p (added - sl.hist.getD i 0) else added              -- step 2
  let cnt := if full then sl.cnt else sl.cnt + 1
  { slot := { sl with
      cnt := cnt
      sum := sum
      hist := sl.hist.set i x                                                        -- step 3
      widx := BitVec.ofNat 16 ((i + 1) % size) }
    y := narrow p (tdiv sum cnt.toNat)                                               -- step 4
    valid := cnt == sl.n }                                                           -- step 5

end Sys2Proof.Machine
end

