-- ==== Sys2Proof/Machine/Engine.lean ====
section
/-! DEFINITION. The commands that belong to no unit (40_command_engine.md): NOP, PROCESS and its dispatch by kind, RELEASE,
and the four direct-form stubs. -/

namespace Sys2Proof.Machine

/-- NOP: complete(OK) (R117). -/
def execNop (s : State) : Host.Outcome State Fault Refusal := .next (s.complete (encode .nop) .ok)

/-- The step of a bound slot's kind on the input Sample; `none` for an UNBOUND slot (R121, R124). -/
def State.kindStep (s : State) (k : Nat) : Option StepResult :=
  match (s.slot k).kind with
  | .unbound => none
  | .ma => some (maStep s.params (s.slot k) s.sampleOperand)
  | .fir => some (firStep s.params s.coef (s.slot k) s.sampleOperand)
  | .bq => some (bqStep s.params s.coef (s.slot k) s.sampleOperand)

/-- process(s) (R121). -/
def execProcess (k : Nat) (s : State) : Host.Outcome State Fault Refusal :=
  .next (s.onSlot (encode (.process k)) k fun s =>
    match s.kindStep k with
    | none => s.complete (encode (.process k)) .notBound
    | some r => s.finishProcess (encode (.process k)) k r)

/-- release(s): the slot is UNBOUND afterwards, OK also if it was before (R123). -/
def execRelease (k : Nat) (s : State) : Host.Outcome State Fault Refusal :=
  .next (s.onSlot (encode (.release k)) k fun s =>
    (s.setSlot k (s.slot k).unbind).complete (encode (.release k)) .ok)

/-- A direct-form stub: complete(NOT_IMPLEMENTED), nothing else changes (R131). -/
def State.stub (s : State) (v : Word) (k : Nat) : State := s.onSlot v k fun s => s.complete v .notImplemented

/-- INIT_IIR_DF, also the "high-pass" alias (R131). -/
def execInitIirDf (k : Nat) (s : State) : Host.Outcome State Fault Refusal := .next (s.stub (encode (.initIirDf k)) k)

/-- INIT_IIR_LP (R131). -/
def execInitIirLp (k : Nat) (s : State) : Host.Outcome State Fault Refusal := .next (s.stub (encode (.initIirLp k)) k)

/-- INIT_IIR_BP (R131). -/
def execInitIirBp (k : Nat) (s : State) : Host.Outcome State Fault Refusal := .next (s.stub (encode (.initIirBp k)) k)

/-- INIT_IIR_BS (R131). -/
def execInitIirBs (k : Nat) (s : State) : Host.Outcome State Fault Refusal := .next (s.stub (encode (.initIirBs k)) k)

end Sys2Proof.Machine
end

