-- ==== Sys2Proof/Machine/Scaler.lean ====
section
/-! DEFINITION. The four FX_* commands of the fixed_point_scaler (41_fixed_point_scaler.md R145 to R149). -/

namespace Sys2Proof.Machine

/-- Every FX_* command writes RESULT <- word32(r) and completes with OK (R145). -/
def State.completeScaler (s : State) (v : Word) (r : Int) : State := (s.setResult r).complete v .ok

/-- r <- to_fixed(a) (R146). -/
def execFxTofix (s : State) : Host.Outcome State Fault Refusal :=
  .next (s.completeScaler (encode .fxTofix) (toFixed s.params s.operandA))

/-- r <- from_fixed(a), not narrowed (R147). -/
def execFxFromfix (s : State) : Host.Outcome State Fault Refusal :=
  .next (s.completeScaler (encode .fxFromfix) (fromFixed s.params s.operandA))

/-- r <- mulq(a, b) (R148). -/
def execFxMul (s : State) : Host.Outcome State Fault Refusal :=
  .next (s.completeScaler (encode .fxMul) (mulq s.params s.operandA s.operandB))

/-- r <- narrow(a) (R149). -/
def execFxNarrow (s : State) : Host.Outcome State Fault Refusal :=
  .next (s.completeScaler (encode .fxNarrow) (narrow s.params s.operandA))

end Sys2Proof.Machine
end

