-- ==== Sys2Proof/Machine/Dispatch.lean ====
section
/-! DEFINITION. exec: the dispatch of a decoded command to its meaning (40_command_engine.md R118), one arm per constructor. -/

namespace Sys2Proof.Machine

def exec (i : Instr) (s : State) : Host.Outcome State Fault Refusal :=
  match i with
  | .nop => Sys2Proof.Machine.execNop s
  | .initMa k => Sys2Proof.Machine.execInitMa k s
  | .initFir k => Sys2Proof.Machine.execInitFir k s
  | .initBq k => Sys2Proof.Machine.execInitBq k s
  | .initIirDf k => Sys2Proof.Machine.execInitIirDf k s
  | .initIirLp k => Sys2Proof.Machine.execInitIirLp k s
  | .initIirBp k => Sys2Proof.Machine.execInitIirBp k s
  | .initIirBs k => Sys2Proof.Machine.execInitIirBs k s
  | .process k => Sys2Proof.Machine.execProcess k s
  | .release k => Sys2Proof.Machine.execRelease k s
  | .fxTofix => Sys2Proof.Machine.execFxTofix s
  | .fxFromfix => Sys2Proof.Machine.execFxFromfix s
  | .fxMul => Sys2Proof.Machine.execFxMul s
  | .fxNarrow => Sys2Proof.Machine.execFxNarrow s

end Sys2Proof.Machine
end

