-- ==== Sys2Proof/Machine/Bus.lean ====
section
/-! DEFINITION. The host port: the address map of the host register space (20_memory.md R64, R65; 10_state.md R25), register
reads (R26 to R42, R67) and host writes with their drop rules (R70, R72; 40_command_engine.md R115). -/

namespace Sys2Proof.Machine

/-! ## The address map -/

/-- The host-visible registers (R25). -/
inductive Reg where
  | id
  | param
  | param2
  | cmd
  | opa
  | opb
  | result
  | status
  | err
  | cfg (k : Nat)
  | coef (k : Nat)
  | state (k : Nat)
  | idx (k : Nat)
  | sum (k : Nat)
  | bound (k : Nat)
  | coefWord (j : Nat)
deriving DecidableEq, Repr

/-- The byte address of each register (R25, R67). -/
def Reg.addr : Reg → Nat
  | .id => 0x000
  | .param => 0x004
  | .param2 => 0x008
  | .cmd => 0x010
  | .opa => 0x014
  | .opb => 0x018
  | .result => 0x01C
  | .status => 0x020
  | .err => 0x024
  | .cfg k => 0x100 + 0x20 * k
  | .coef k => 0x100 + 0x20 * k + 0x04
  | .state k => 0x100 + 0x20 * k + 0x08
  | .idx k => 0x100 + 0x20 * k + 0x0C
  | .sum k => 0x100 + 0x20 * k + 0x10
  | .bound k => 0x100 + 0x20 * k + 0x14
  | .coefWord j => coefAddr j

/-- The register at an offset of a slot's 0x20-byte block; offsets 0x18 and 0x1C are unmapped (R43). -/
def blockReg (k offset : Nat) : Option Reg :=
  match offset with
  | 0x00 => some (.cfg k)
  | 0x04 => some (.coef k)
  | 0x08 => some (.state k)
  | 0x0C => some (.idx k)
  | 0x10 => some (.sum k)
  | 0x14 => some (.bound k)
  | _ => none

/-- The global register at an address below 0x100; 0x00C and 0x028 to 0x0FF are unmapped (R64). -/
def globalReg (a : Nat) : Option Reg :=
  match a with
  | 0x000 => some .id
  | 0x004 => some .param
  | 0x008 => some .param2
  | 0x010 => some .cmd
  | 0x014 => some .opa
  | 0x018 => some .opb
  | 0x01C => some .result
  | 0x020 => some .status
  | 0x024 => some .err
  | _ => none

/-- What is mapped at a word address, if anything (R64, R65). -/
def regAt (p : Params) (a : Nat) : Option Reg :=
  if a < 0x100 then globalReg a
  else if a < 0x100 + 0x20 * p.numInst then blockReg ((a - 0x100) / 0x20) ((a - 0x100) % 0x20)
  else if coefAddr 0 ≤ a ∧ a < coefAddr p.coefDepth ∧ a % 4 = 0 then some (.coefWord ((a - coefAddr 0) / 4))
  else none

/-- Access types (R26). -/
inductive Access where
  | ro
  | rw
  | wo
  | w1c
deriving DecidableEq, Repr

/-- The access type of each register (R25). -/
def Reg.access : Reg → Access
  | .id => .ro
  | .param => .ro
  | .param2 => .ro
  | .cmd => .wo
  | .opa => .rw
  | .opb => .rw
  | .result => .ro
  | .status => .ro
  | .err => .w1c
  | .cfg _ => .rw
  | .coef _ => .rw
  | .state _ => .ro
  | .idx _ => .ro
  | .sum _ => .ro
  | .bound _ => .ro
  | .coefWord _ => .rw

/-- The size signal (R61). -/
def Size.ofSignal (b : BitVec 2) : Size :=
  match b.toNat with
  | 0 => .byte
  | 1 => .half
  | 2 => .word
  | _ => .other

/-- R70: an access takes effect only if it is 32 bits wide and its address a multiple of 4. -/
def takesEffect (a : Addr) (size : Size) : Bool := size == .word && a.toNat % 4 == 0

/-! ## Reads -/

/-- ID: "CEF1" (R27). -/
def idWord : Word := 0x43454631

/-- PARAM: [7:0] W, [15:8] A, [23:16] NUM_INST, [31:24] 0 (R28). -/
def paramWord (p : Params) : Word :=
  (0 : Byte) ++ BitVec.ofNat 8 p.numInst ++ BitVec.ofNat 8 p.accBits ++ BitVec.ofNat 8 p.sampleBits

/-- PARAM2: [15:0] HIST_CAP, [31:16] COEF_DEPTH (R29). -/
def param2Word (p : Params) : Word := BitVec.ofNat 16 p.coefDepth ++ BitVec.ofNat 16 p.histCap

/-- INSTs_CFG: [15:0] COUNT, [16] SETTLE2, [31:17] 0 (R37). -/
def InstRegs.cfgWord (r : InstRegs) : Word := (0 : BitVec 15) ++ bit r.settle2 ++ r.count

/-- INSTs_COEF: [15:0] BASE, [31:16] 0 (R38). -/
def InstRegs.coefWord (r : InstRegs) : Word := (0 : Half) ++ r.base

/-- INSTs_STATE: [2:0] KIND, [3] SETTLED, [15:4] 0, [31:16] CNT (R39). -/
def Slot.stateWord (sl : Slot) : Word := sl.cnt ++ (0 : BitVec 12) ++ bit sl.settled ++ sl.kind.number

/-- INSTs_IDX: [15:0] WIDX, [31:16] N (R40). -/
def Slot.idxWord (sl : Slot) : Word := sl.n ++ sl.widx

/-- INSTs_SUM: word32(sum) (R41). -/
def Slot.sumWord (sl : Slot) : Word := word32 sl.sum

/-- INSTs_BOUND: [15:0] CBASE, [31:16] THR (R42). -/
def Slot.boundWord (sl : Slot) : Word := sl.thr ++ sl.cbase

/-- The value a register reads as (R26 to R42, R67). -/
def State.readReg (s : State) : Reg → Word
  | .id => idWord
  | .param => paramWord s.params
  | .param2 => param2Word s.params
  | .cmd => 0
  | .opa => s.opa
  | .opb => s.opb
  | .result => s.result
  | .status => s.statusWord
  | .err => s.err.word
  | .cfg k => (s.instReg k).cfgWord
  | .coef k => (s.instReg k).coefWord
  | .state k => (s.slot k).stateWord
  | .idx k => (s.slot k).idxWord
  | .sum k => (s.slot k).sumWord
  | .bound k => (s.slot k).boundWord
  | .coefWord j => word32 (s.coef j)

/-- Read(addr, size): the register's value; 0 for an unmapped address or an access that takes no effect (R65, R70).
Reading changes no state (R71). -/
def State.busRead (s : State) (a : Addr) (size : Size) : Word :=
  if takesEffect a size then
    match regAt s.params a.toNat with
    | some r => s.readReg r
    | none => 0
  else 0

/-! ## Writes -/

/-- What becomes of a host write (R72, R115). -/
inductive WriteFate where
  /-- Dropped, ERR.BUS. -/
  | dropBus
  /-- Dropped, ERR.BUSY_WR. -/
  | dropBusy
  /-- Performed on this register. -/
  | perform (r : Reg)
deriving DecidableEq, Repr

/-- The bus drops of R72 come first; a write to ERR then always acts (R35); any other is dropped while a command is
pending (R115). -/
def State.writeFate (s : State) (a : Addr) (size : Size) : WriteFate :=
  if takesEffect a size then
    match regAt s.params a.toNat with
    | none => .dropBus
    | some r =>
      match r.access with
      | .ro => .dropBus
      | .w1c => .perform r
      | .rw => if s.busy then .dropBusy else .perform r
      | .wo => if s.busy then .dropBusy else .perform r
  else .dropBus

/-- A performed write of data v: the writable fields are stored, reserved bits ignored (R26). Read-only registers are
never the target of one. -/
def State.storeReg (s : State) (r : Reg) (v : Word) : State :=
  match r with
  | .cmd => { s with pend := some v }
  | .opa => { s with opa := v }
  | .opb => { s with opb := v }
  | .err => { s with err := s.err.writeOneToClear v }
  | .cfg k => s.setInstReg k { s.instReg k with count := v.extractLsb' 0 16, settle2 := v.getLsbD 16 }
  | .coef k => s.setInstReg k { s.instReg k with base := v.extractLsb' 0 16 }
  | .coefWord j => s.writeCoef j v
  | .id => s
  | .param => s
  | .param2 => s
  | .result => s
  | .status => s
  | .state _ => s
  | .idx _ => s
  | .sum _ => s
  | .bound _ => s

/-- Write(addr, size, data). -/
def State.busWrite (s : State) (a : Addr) (size : Size) (v : Word) : State :=
  match s.writeFate a size with
  | .dropBus => s.flagBus
  | .dropBusy => s.flagBusyWr
  | .perform r => s.storeReg r v

end Sys2Proof.Machine
end

