-- ==== Sys2Proof/Machine/HostAsm.lean ====
section
/-! DEFINITION. The host assembly of 30_encoding.md R100 and the pseudo-instructions of R101, as lists of host operations. -/

namespace Sys2Proof.Machine

/-- Where `wr` and `rd` point: a register by name, or a byte address itself (R100), which has 15 bits (R62). -/
inductive AsmTarget where
  | reg (r : Reg)
  | addr (a : Addr)
deriving DecidableEq, Repr

/-- addr(reg) (R100). A name whose index has no register, such as C[j] with j at or above COEF_DEPTH, still stands for the
address R100 computes.
DESIGN CHOICE, unsafe (log 21): where that address is past the 15-bit space (C[j] for j of 4096 or more, a slot register for s
of 1016 or more), the model cuts it to 15 bits, so C[4100] is 0x0010; R100 says nothing of such an index. -/
def AsmTarget.addrOf : AsmTarget → Addr
  | .reg r => BitVec.ofNat 15 r.addr
  | .addr a => a

/-- The mnemonics a `cmd` line may name (R94, R100). -/
inductive Mnemonic where
  | nop
  | initMa
  | initFir
  | initBq
  | initIirDf
  | initIirLp
  | initIirBp
  | initIirBs
  | process
  | release
  | fxTofix
  | fxFromfix
  | fxMul
  | fxNarrow
deriving DecidableEq, Repr

/-- The command a mnemonic names (R94), on slot `k` where it is an instance command. -/
def Mnemonic.command : Mnemonic → (k : Nat) → Instr
  | .nop, _ => .nop
  | .initMa, k => .initMa k
  | .initFir, k => .initFir k
  | .initBq, k => .initBq k
  | .initIirDf, k => .initIirDf k
  | .initIirLp, k => .initIirLp k
  | .initIirBp, k => .initIirBp k
  | .initIirBs, k => .initIirBs k
  | .process, k => .process k
  | .release, k => .release k
  | .fxTofix, _ => .fxTofix
  | .fxFromfix, _ => .fxFromfix
  | .fxMul, _ => .fxMul
  | .fxNarrow, _ => .fxNarrow

/-- encode(MNEMONIC, s) from R91 (R100): the mnemonic's opcode in OP and s in INST, whether or not the mnemonic takes a slot.
`cmd FX_TOFIX i1` is the illegal word 0x0000010A (R99, program P4 of 95_test_vectors.md). -/
def Mnemonic.word (m : Mnemonic) (s : Nibble) : Word := commandWord (m.command 0).opcode s

/-- One line of host assembly: the four primitive operations (R100). `slot` is the optional `i<s>` of a `cmd` line. -/
inductive AsmLine where
  | wr (t : AsmTarget) (v : Word)
  | rd (t : AsmTarget)
  | cmd (m : Mnemonic) (slot : Option Nibble)
  | poll
deriving DecidableEq, Repr

/-- The host operation of a line; s is 0 when a `cmd` line omits it (R100). -/
def AsmLine.op : AsmLine → HostOp
  | .wr t v => .write t.addrOf .word v
  | .rd t => .read t.addrOf .word
  | .cmd m slot => .write 0x010 .word (m.word (slot.getD 0))
  | .poll => .poll

/-- A program as the host's operations, in order (R100, R275). -/
def assemble (lines : List AsmLine) : List HostOp := lines.map AsmLine.op

/-- ldcoef j, v0, v1, ... (R101). -/
def ldcoef (j : Nat) : List Word → List AsmLine
  | [] => []
  | v :: vs => .wr (.reg (.coefWord j)) v :: ldcoef (j + 1) vs

/-- init_ma i<k>, S (R101). -/
def initMaLines (k : Nibble) (size : Word) : List AsmLine :=
  [.wr (.reg (.cfg k.toNat)) size, .cmd .initMa (some k), .poll]

/-- init_fir i<k>, base, N (R101). -/
def initFirLines (k : Nibble) (base taps : Word) : List AsmLine :=
  [.wr (.reg (.cfg k.toNat)) taps, .wr (.reg (.coef k.toNat)) base, .cmd .initFir (some k), .poll]

/-- init_bq i<k>, base, M, settle2 (R101). -/
def initBqLines (k : Nibble) (base sections settle2 : Word) : List AsmLine :=
  [.wr (.reg (.cfg k.toNat)) (sections + settle2 * 0x10000), .wr (.reg (.coef k.toNat)) base,
   .cmd .initBq (some k), .poll]

/-- process i<k>, x (R101). -/
def processLines (k : Nibble) (x : Word) : List AsmLine :=
  [.wr (.reg .opa) x, .cmd .process (some k), .poll, .rd (.reg .result), .rd (.reg .status)]

/-- fx <MNEMONIC>, a for the one-operand scaler commands (R101). -/
def fxLines (m : Mnemonic) (a : Word) : List AsmLine := [.wr (.reg .opa) a, .cmd m none, .poll, .rd (.reg .result)]

/-- fx FX_MUL, a, b (R101). -/
def fxMulLines (a b : Word) : List AsmLine :=
  [.wr (.reg .opa) a, .wr (.reg .opb) b, .cmd .fxMul none, .poll, .rd (.reg .result)]

/-- release i<k> (R101). -/
def releaseLines (k : Nibble) : List AsmLine := [.cmd .release (some k), .poll]

/-- clrerr (R101). -/
def clrerrLines : List AsmLine := [.wr (.reg .err) 0x7]

end Sys2Proof.Machine
end

