-- ==== Sys2Proof/Machine/Turns.lean ====
section
/-! DEFINITION. The turns of the two agents: the engine's step complete_pending (40_command_engine.md R114, R118), the host's
next operation (20_memory.md R61, 30_encoding.md R100), and the reset input (70_reset_and_hazards.md R261). -/

namespace Sys2Proof.Machine

/-- execute(v) (R118): an illegal word completes with ILLEGAL_CMD, a legal one is executed. -/
def execute (v : Word) (s : State) : Host.Outcome State Fault Refusal :=
  match decode v with
  | .error _ => .next (s.completeIllegal v)
  | .ok i => exec i s

/-- The engine's turn: complete_pending, enabled exactly when a command is pending (R114); otherwise nothing happens. -/
def engineTurn (s : State) : Host.Outcome State Fault Refusal :=
  match s.pend with
  | none => .next s
  | some v => execute v s

/-- Every piece of the block's state at its reset value, coefficient RAM and history newly unspecified (R262 to R264); what
is outside the block stays. -/
def State.withResetValues (s : State) (level : Bool) : State :=
  { State.resetOf s.params (s.epoch + 1) with rstN := level, host := s.host, sched := s.sched, reads := s.reads }

/-- Driving rst_n. At 0 the block is in reset, a pending command discarded; when it returns to 1 every piece of state holds
its reset value (R261). Driving 1 when it is 1 changes nothing. -/
def State.driveReset (s : State) (level : Bool) : State :=
  if level && s.rstN then s else s.withResetValues level

/-- `poll`: one Read of STATUS, repeated until bit 0 (BUSY) reads 0 (R100). What it reads is no `rd` result (R275). -/
def State.pollOnce (s : State) : State :=
  if (s.busRead 0x020 .word).getLsbD 0 then { s with host := .poll :: s.host } else s

/-- A bus transaction: it has no step while rst_n is 0 (R261, P7). -/
def State.transaction (s : State) (after : State) : Host.Outcome State Fault Refusal :=
  if s.rstN then .next after else .fault .transactionInReset

/-- One operation of the host, already taken off its list. -/
def hostOp (op : HostOp) (s : State) : Host.Outcome State Fault Refusal :=
  match op with
  | .read a size => s.transaction { s with reads := s.reads ++ [s.busRead a size] }
  | .write a size v => s.transaction (s.busWrite a size v)
  | .poll => s.transaction s.pollOnce
  | .rstN level => .next (s.driveReset level)

/-- The host's turn: its next operation, if it has one. -/
def hostTurn (s : State) : Host.Outcome State Fault Refusal :=
  match s.host with
  | [] => .next s
  | op :: rest => hostOp op { s with host := rest }

/-- Whose turn it is: the schedule's next entry; when the schedule has run out, the engine's if a command is pending (so a
pending command is never starved, R274), otherwise the host's (log 7). -/
def State.turn (s : State) : Turn :=
  match s.sched with
  | t :: _ => t
  | [] => if s.busy then .engine else .host

/-- The state with this turn taken off the schedule. -/
def State.turnTaken (s : State) : State := { s with sched := s.sched.tail }

/-- One turn of one agent. -/
def takeTurn (s : State) : Host.Outcome State Fault Refusal :=
  match s.turn with
  | .engine => engineTurn s.turnTaken
  | .host => hostTurn s.turnTaken

/-- The command word `v` as if the host had just written it to CMD of an idle block out of reset, and the engine's turn next
(log 11). -/
def State.withPending (s : State) (v : Word) : State :=
  { s with rstN := true, pend := some v, sched := .engine :: s.sched }

end Sys2Proof.Machine
end

