-- ==== Sys2Proof/Machine/Step.lean ====
section
/-! DEFINITION. One step of the machine, and the placing of a command so that the next step runs it. Everything a test could
show wrong stands in Machine/Turns.lean and below. -/

namespace Sys2Proof.Machine

/-- One step: one turn of the host or of the engine (R111, R114). -/
def step (s : State) : Host.Outcome State Fault Refusal := takeTurn s

/-- `s` with the command word of an opcode-table row pending, so that the next step runs it (R113; log 11). -/
def State.withFetchWord (s : State) (nbits w : Nat) : State := s.withPending (tableWord nbits w)

end Sys2Proof.Machine
end

