-- ==== Sys2Proof/Safety.lean ====
section
/-! DEFINITION. The vocabulary of claims: the invariant every step keeps, when a host program has ended, the busy hazard,
and feeding a slot a sequence of samples. -/

namespace Sys2Proof.Machine

/-! ## The invariant -/

/-- v is an n-bit two's-complement integer (R10, R12). -/
abbrev fits (n : Nat) (v : Int) : Prop := -(2 ^ (n - 1)) ≤ v ∧ v < 2 ^ (n - 1)

/-- An MA slot: size in 1..HIST_CAP, no coefficients, fill count and write index in range and equal while filling (R163),
the window made of Samples, and the running sum the wrapped sum of the window (R166). -/
abbrev Slot.MaInv (p : Params) (sl : Slot) : Prop :=
  1 ≤ sl.n.toNat ∧ sl.n.toNat ≤ p.histCap ∧ sl.cbase = 0 ∧ sl.thr = 0 ∧
  sl.cnt.toNat ≤ sl.n.toNat ∧ sl.widx.toNat < sl.n.toNat ∧ (sl.cnt.toNat < sl.n.toNat → sl.widx = sl.cnt) ∧
  (∀ h ∈ sl.hist.take sl.n.toNat, fits p.sampleBits h) ∧
  sl.sum = wrapA p (sl.hist.take sl.cnt.toNat).sum

/-- A FIR slot: taps in 1..HIST_CAP and inside coefficient RAM (R181), fill counter at most N - 1 (R185), a delay line of
Samples (R183). -/
abbrev Slot.FirInv (p : Params) (sl : Slot) : Prop :=
  1 ≤ sl.n.toNat ∧ sl.n.toNat ≤ p.histCap ∧ sl.cbase.toNat + sl.n.toNat ≤ p.coefDepth ∧ sl.thr = 0 ∧
  sl.cnt.toNat ≤ sl.n.toNat - 1 ∧ sl.widx = 0 ∧ sl.sum = 0 ∧
  (∀ h ∈ sl.hist.take (sl.n.toNat - 1), fits p.sampleBits h)

/-- A BQ slot: sections fit the history file and coefficient RAM (R201), threshold M or 2M (R203), counter at most the
threshold (R209). -/
abbrev Slot.BqInv (p : Params) (sl : Slot) : Prop :=
  1 ≤ sl.n.toNat ∧ 2 * sl.n.toNat ≤ p.histCap ∧ sl.cbase.toNat + 6 * sl.n.toNat ≤ p.coefDepth ∧
  (sl.thr.toNat = sl.n.toNat ∨ sl.thr.toNat = 2 * sl.n.toNat) ∧
  sl.cnt.toNat ≤ sl.thr.toNat ∧ sl.widx = 0 ∧ sl.sum = 0

/-- An UNBOUND slot: every field 0 (R36). -/
abbrev Slot.UnboundInv (sl : Slot) : Prop :=
  sl.n = 0 ∧ sl.cbase = 0 ∧ sl.thr = 0 ∧ sl.cnt = 0 ∧ sl.widx = 0 ∧ sl.sum = 0

/-- What its kind says of a slot's fields. -/
def Slot.KindInv (p : Params) (sl : Slot) : Prop :=
  match sl.kind with
  | .unbound => sl.UnboundInv
  | .ma => sl.MaInv p
  | .fir => sl.FirInv p
  | .bq => sl.BqInv p

/-- A slot: HIST_CAP history words and the sum are A-bit values (R36, R44), and its kind's part. -/
structure Slot.Inv (p : Params) (sl : Slot) : Prop where
  histLength : sl.hist.length = p.histCap
  histFits : ∀ h ∈ sl.hist, fits p.accBits h
  sumFits : fits p.accBits sl.sum
  kindInv : sl.KindInv p

/-- The invariant of the machine. -/
structure State.Inv (s : State) : Prop where
  /-- One configuration block per slot (R37, R43). -/
  instRegsLength : s.instRegs.length = s.params.numInst
  /-- NUM_INST slots (R14). -/
  slotsLength : s.slots.length = s.params.numInst
  /-- Every slot is as its kind says. -/
  slotsInv : ∀ sl ∈ s.slots, sl.Inv s.params
  /-- Coefficient RAM is in canonical form, inside its address range. -/
  coefRamWf : s.coefRam.wf s.params = true
  /-- In reset no command is pending (R261). -/
  resetIdle : s.rstN = false → s.pend = none

/-! ## The address map as R64 writes it -/

/-- An address assigned to a register or a coefficient word (R25, R64). -/
def mappedAddr (p : Params) (a : Nat) : Prop :=
  a ∈ [0x000, 0x004, 0x008, 0x010, 0x014, 0x018, 0x01C, 0x020, 0x024] ∨
  (∃ k < p.numInst, ∃ o ∈ [0x00, 0x04, 0x08, 0x0C, 0x10, 0x14], a = 0x100 + 0x20 * k + o) ∨
  ∃ j < p.coefDepth, a = 0x4000 + 4 * j

/-- The address of a read-only register: ID, PARAM, PARAM2, RESULT, STATUS, INSTs_STATE, IDX, SUM, BOUND (R72). -/
def readOnlyAddr (p : Params) (a : Nat) : Prop :=
  a ∈ [0x000, 0x004, 0x008, 0x01C, 0x020] ∨
  ∃ k < p.numInst, ∃ o ∈ [0x08, 0x0C, 0x10, 0x14], a = 0x100 + 0x20 * k + o

/-! ## The checks before a command's own -/

/-- The "Exceptions" line of a no-instance command: a word with its opcode and any other bit set is illegal (R97). -/
def rejectsOtherBits (op : Nibble) : Prop :=
  ∀ (v : Word) (s : State), v.extractLsb' 0 4 = op → v ≠ op.setWidth 32 → ∃ t, execute v s = .next t ∧ t.code = .illegalCmd

/-- The "Exceptions" line of an instance command: ILLEGAL_CMD for reserved bits and BAD_INST for a slot that does not exist
come before anything the command itself checks (R118, R240). -/
def checkedFirst (op : Nibble) (cmd : Nat → Instr) : Prop :=
  (∀ (v : Word) (s : State), v.extractLsb' 0 4 = op → v.extractLsb' 4 4 ≠ 0 ∨ v.extractLsb' 12 20 ≠ 0 →
    ∃ t, execute v s = .next t ∧ t.code = .illegalCmd) ∧
  ∀ (s : State) (k : Nat), s.params.numInst ≤ k → ∃ t, exec (cmd k) s = .next t ∧ t.code = .badInst

/-! ## Host programs -/

/-- R275: a program has ended when its last operation has been performed and no command is pending. -/
def State.ended (s : State) : Bool := s.host.isEmpty && !s.busy

/-- The busy hazard (R267): the next turn is the host's and it writes what is dropped because a command is pending. -/
def State.busyHazard (s : State) : Bool :=
  match s.turn, s.host with
  | .host, .write a size _ :: _ => s.writeFate a size == .dropBusy
  | _, _ => false

/-- Loading a program and its schedule from outside (R100, log 11). -/
def State.withProgram (s : State) (lines : List AsmLine) (sched : List Turn) : State :=
  { s with host := assemble lines, sched := sched }

/-! ## Feeding a slot -/

/-- The state after PROCESS of slot k with x in OPA (R265 step 6), where exec answers one. -/
def State.feed1 (s : State) (k : Nat) (x : Word) : State :=
  match exec (.process k) { s with opa := x } with
  | .next t => t
  | .fault _ => s
  | .refused _ => s

/-- One PROCESS of slot k per word, first word first. -/
def State.feed (s : State) (k : Nat) (xs : List Word) : State := xs.foldl (fun t x => t.feed1 k x) s

/-- The Sample a word in OPA stands for (R121). -/
def sampleOf (p : Params) (x : Word) : Int := sext p.sampleBits x

/-- Input j places back in a sequence of words (0 the last one), as a Sample; 0 before the first (R183). -/
def sampleBack (p : Params) (xs : List Word) (j : Nat) : Int := (xs.reverse.map (sampleOf p)).getD j 0

end Sys2Proof.Machine
end

