-- ==== Sys2Proof/Laws/State.lean ====
section
/-! SUPPORT. What each update of State leaves in each field: one lemma per field per update. -/

namespace Sys2Proof.Machine

variable (s : State)

/-! ### setSlot -/

@[simp] theorem State.setSlot_params (k : Nat) (sl : Slot) : (s.setSlot k sl).params = s.params := rfl
@[simp] theorem State.setSlot_rstN (k : Nat) (sl : Slot) : (s.setSlot k sl).rstN = s.rstN := rfl
@[simp] theorem State.setSlot_opa (k : Nat) (sl : Slot) : (s.setSlot k sl).opa = s.opa := rfl
@[simp] theorem State.setSlot_opb (k : Nat) (sl : Slot) : (s.setSlot k sl).opb = s.opb := rfl
@[simp] theorem State.setSlot_result (k : Nat) (sl : Slot) : (s.setSlot k sl).result = s.result := rfl
@[simp] theorem State.setSlot_code (k : Nat) (sl : Slot) : (s.setSlot k sl).code = s.code := rfl
@[simp] theorem State.setSlot_lastOp (k : Nat) (sl : Slot) : (s.setSlot k sl).lastOp = s.lastOp := rfl
@[simp] theorem State.setSlot_lastInst (k : Nat) (sl : Slot) : (s.setSlot k sl).lastInst = s.lastInst := rfl
@[simp] theorem State.setSlot_err (k : Nat) (sl : Slot) : (s.setSlot k sl).err = s.err := rfl
@[simp] theorem State.setSlot_pend (k : Nat) (sl : Slot) : (s.setSlot k sl).pend = s.pend := rfl
@[simp] theorem State.setSlot_instRegs (k : Nat) (sl : Slot) : (s.setSlot k sl).instRegs = s.instRegs := rfl
@[simp] theorem State.setSlot_slots (k : Nat) (sl : Slot) : (s.setSlot k sl).slots = s.slots.set k sl := rfl
@[simp] theorem State.setSlot_coefRam (k : Nat) (sl : Slot) : (s.setSlot k sl).coefRam = s.coefRam := rfl
@[simp] theorem State.setSlot_epoch (k : Nat) (sl : Slot) : (s.setSlot k sl).epoch = s.epoch := rfl
@[simp] theorem State.setSlot_host (k : Nat) (sl : Slot) : (s.setSlot k sl).host = s.host := rfl
@[simp] theorem State.setSlot_sched (k : Nat) (sl : Slot) : (s.setSlot k sl).sched = s.sched := rfl
@[simp] theorem State.setSlot_reads (k : Nat) (sl : Slot) : (s.setSlot k sl).reads = s.reads := rfl

/-! ### setInstReg -/

@[simp] theorem State.setInstReg_params (k : Nat) (r : InstRegs) : (s.setInstReg k r).params = s.params := rfl
@[simp] theorem State.setInstReg_rstN (k : Nat) (r : InstRegs) : (s.setInstReg k r).rstN = s.rstN := rfl
@[simp] theorem State.setInstReg_opa (k : Nat) (r : InstRegs) : (s.setInstReg k r).opa = s.opa := rfl
@[simp] theorem State.setInstReg_opb (k : Nat) (r : InstRegs) : (s.setInstReg k r).opb = s.opb := rfl
@[simp] theorem State.setInstReg_result (k : Nat) (r : InstRegs) : (s.setInstReg k r).result = s.result := rfl
@[simp] theorem State.setInstReg_code (k : Nat) (r : InstRegs) : (s.setInstReg k r).code = s.code := rfl
@[simp] theorem State.setInstReg_lastOp (k : Nat) (r : InstRegs) : (s.setInstReg k r).lastOp = s.lastOp := rfl
@[simp] theorem State.setInstReg_lastInst (k : Nat) (r : InstRegs) : (s.setInstReg k r).lastInst = s.lastInst := rfl
@[simp] theorem State.setInstReg_err (k : Nat) (r : InstRegs) : (s.setInstReg k r).err = s.err := rfl
@[simp] theorem State.setInstReg_pend (k : Nat) (r : InstRegs) : (s.setInstReg k r).pend = s.pend := rfl
@[simp] theorem State.setInstReg_instRegs (k : Nat) (r : InstRegs) : (s.setInstReg k r).instRegs = s.instRegs.set k r := rfl
@[simp] theorem State.setInstReg_slots (k : Nat) (r : InstRegs) : (s.setInstReg k r).slots = s.slots := rfl
@[simp] theorem State.setInstReg_coefRam (k : Nat) (r : InstRegs) : (s.setInstReg k r).coefRam = s.coefRam := rfl
@[simp] theorem State.setInstReg_epoch (k : Nat) (r : InstRegs) : (s.setInstReg k r).epoch = s.epoch := rfl
@[simp] theorem State.setInstReg_host (k : Nat) (r : InstRegs) : (s.setInstReg k r).host = s.host := rfl
@[simp] theorem State.setInstReg_sched (k : Nat) (r : InstRegs) : (s.setInstReg k r).sched = s.sched := rfl
@[simp] theorem State.setInstReg_reads (k : Nat) (r : InstRegs) : (s.setInstReg k r).reads = s.reads := rfl

/-! ### setResult -/

@[simp] theorem State.setResult_params (y : Int) : (s.setResult y).params = s.params := rfl
@[simp] theorem State.setResult_rstN (y : Int) : (s.setResult y).rstN = s.rstN := rfl
@[simp] theorem State.setResult_opa (y : Int) : (s.setResult y).opa = s.opa := rfl
@[simp] theorem State.setResult_opb (y : Int) : (s.setResult y).opb = s.opb := rfl
@[simp] theorem State.setResult_result (y : Int) : (s.setResult y).result = word32 y := rfl
@[simp] theorem State.setResult_code (y : Int) : (s.setResult y).code = s.code := rfl
@[simp] theorem State.setResult_lastOp (y : Int) : (s.setResult y).lastOp = s.lastOp := rfl
@[simp] theorem State.setResult_lastInst (y : Int) : (s.setResult y).lastInst = s.lastInst := rfl
@[simp] theorem State.setResult_err (y : Int) : (s.setResult y).err = s.err := rfl
@[simp] theorem State.setResult_pend (y : Int) : (s.setResult y).pend = s.pend := rfl
@[simp] theorem State.setResult_instRegs (y : Int) : (s.setResult y).instRegs = s.instRegs := rfl
@[simp] theorem State.setResult_slots (y : Int) : (s.setResult y).slots = s.slots := rfl
@[simp] theorem State.setResult_coefRam (y : Int) : (s.setResult y).coefRam = s.coefRam := rfl
@[simp] theorem State.setResult_epoch (y : Int) : (s.setResult y).epoch = s.epoch := rfl
@[simp] theorem State.setResult_host (y : Int) : (s.setResult y).host = s.host := rfl
@[simp] theorem State.setResult_sched (y : Int) : (s.setResult y).sched = s.sched := rfl
@[simp] theorem State.setResult_reads (y : Int) : (s.setResult y).reads = s.reads := rfl

/-! ### flagIllegal -/

@[simp] theorem State.flagIllegal_params : (s.flagIllegal).params = s.params := rfl
@[simp] theorem State.flagIllegal_rstN : (s.flagIllegal).rstN = s.rstN := rfl
@[simp] theorem State.flagIllegal_opa : (s.flagIllegal).opa = s.opa := rfl
@[simp] theorem State.flagIllegal_opb : (s.flagIllegal).opb = s.opb := rfl
@[simp] theorem State.flagIllegal_result : (s.flagIllegal).result = s.result := rfl
@[simp] theorem State.flagIllegal_code : (s.flagIllegal).code = s.code := rfl
@[simp] theorem State.flagIllegal_lastOp : (s.flagIllegal).lastOp = s.lastOp := rfl
@[simp] theorem State.flagIllegal_lastInst : (s.flagIllegal).lastInst = s.lastInst := rfl
@[simp] theorem State.flagIllegal_err : (s.flagIllegal).err = { s.err with illegal := true } := rfl
@[simp] theorem State.flagIllegal_pend : (s.flagIllegal).pend = s.pend := rfl
@[simp] theorem State.flagIllegal_instRegs : (s.flagIllegal).instRegs = s.instRegs := rfl
@[simp] theorem State.flagIllegal_slots : (s.flagIllegal).slots = s.slots := rfl
@[simp] theorem State.flagIllegal_coefRam : (s.flagIllegal).coefRam = s.coefRam := rfl
@[simp] theorem State.flagIllegal_epoch : (s.flagIllegal).epoch = s.epoch := rfl
@[simp] theorem State.flagIllegal_host : (s.flagIllegal).host = s.host := rfl
@[simp] theorem State.flagIllegal_sched : (s.flagIllegal).sched = s.sched := rfl
@[simp] theorem State.flagIllegal_reads : (s.flagIllegal).reads = s.reads := rfl

/-! ### flagBusyWr -/

@[simp] theorem State.flagBusyWr_params : (s.flagBusyWr).params = s.params := rfl
@[simp] theorem State.flagBusyWr_rstN : (s.flagBusyWr).rstN = s.rstN := rfl
@[simp] theorem State.flagBusyWr_opa : (s.flagBusyWr).opa = s.opa := rfl
@[simp] theorem State.flagBusyWr_opb : (s.flagBusyWr).opb = s.opb := rfl
@[simp] theorem State.flagBusyWr_result : (s.flagBusyWr).result = s.result := rfl
@[simp] theorem State.flagBusyWr_code : (s.flagBusyWr).code = s.code := rfl
@[simp] theorem State.flagBusyWr_lastOp : (s.flagBusyWr).lastOp = s.lastOp := rfl
@[simp] theorem State.flagBusyWr_lastInst : (s.flagBusyWr).lastInst = s.lastInst := rfl
@[simp] theorem State.flagBusyWr_err : (s.flagBusyWr).err = { s.err with busyWr := true } := rfl
@[simp] theorem State.flagBusyWr_pend : (s.flagBusyWr).pend = s.pend := rfl
@[simp] theorem State.flagBusyWr_instRegs : (s.flagBusyWr).instRegs = s.instRegs := rfl
@[simp] theorem State.flagBusyWr_slots : (s.flagBusyWr).slots = s.slots := rfl
@[simp] theorem State.flagBusyWr_coefRam : (s.flagBusyWr).coefRam = s.coefRam := rfl
@[simp] theorem State.flagBusyWr_epoch : (s.flagBusyWr).epoch = s.epoch := rfl
@[simp] theorem State.flagBusyWr_host : (s.flagBusyWr).host = s.host := rfl
@[simp] theorem State.flagBusyWr_sched : (s.flagBusyWr).sched = s.sched := rfl
@[simp] theorem State.flagBusyWr_reads : (s.flagBusyWr).reads = s.reads := rfl

/-! ### flagBus -/

@[simp] theorem State.flagBus_params : (s.flagBus).params = s.params := rfl
@[simp] theorem State.flagBus_rstN : (s.flagBus).rstN = s.rstN := rfl
@[simp] theorem State.flagBus_opa : (s.flagBus).opa = s.opa := rfl
@[simp] theorem State.flagBus_opb : (s.flagBus).opb = s.opb := rfl
@[simp] theorem State.flagBus_result : (s.flagBus).result = s.result := rfl
@[simp] theorem State.flagBus_code : (s.flagBus).code = s.code := rfl
@[simp] theorem State.flagBus_lastOp : (s.flagBus).lastOp = s.lastOp := rfl
@[simp] theorem State.flagBus_lastInst : (s.flagBus).lastInst = s.lastInst := rfl
@[simp] theorem State.flagBus_err : (s.flagBus).err = { s.err with bus := true } := rfl
@[simp] theorem State.flagBus_pend : (s.flagBus).pend = s.pend := rfl
@[simp] theorem State.flagBus_instRegs : (s.flagBus).instRegs = s.instRegs := rfl
@[simp] theorem State.flagBus_slots : (s.flagBus).slots = s.slots := rfl
@[simp] theorem State.flagBus_coefRam : (s.flagBus).coefRam = s.coefRam := rfl
@[simp] theorem State.flagBus_epoch : (s.flagBus).epoch = s.epoch := rfl
@[simp] theorem State.flagBus_host : (s.flagBus).host = s.host := rfl
@[simp] theorem State.flagBus_sched : (s.flagBus).sched = s.sched := rfl
@[simp] theorem State.flagBus_reads : (s.flagBus).reads = s.reads := rfl

/-! ### complete -/

@[simp] theorem State.complete_params (v : Word) (c : Code) : (s.complete v c).params = s.params := rfl
@[simp] theorem State.complete_rstN (v : Word) (c : Code) : (s.complete v c).rstN = s.rstN := rfl
@[simp] theorem State.complete_opa (v : Word) (c : Code) : (s.complete v c).opa = s.opa := rfl
@[simp] theorem State.complete_opb (v : Word) (c : Code) : (s.complete v c).opb = s.opb := rfl
@[simp] theorem State.complete_result (v : Word) (c : Code) : (s.complete v c).result = s.result := rfl
@[simp] theorem State.complete_code (v : Word) (c : Code) : (s.complete v c).code = c := rfl
@[simp] theorem State.complete_lastOp (v : Word) (c : Code) : (s.complete v c).lastOp = opField v := rfl
@[simp] theorem State.complete_lastInst (v : Word) (c : Code) : (s.complete v c).lastInst = instField v := rfl
@[simp] theorem State.complete_err (v : Word) (c : Code) : (s.complete v c).err = s.err := rfl
@[simp] theorem State.complete_pend (v : Word) (c : Code) : (s.complete v c).pend = none := rfl
@[simp] theorem State.complete_instRegs (v : Word) (c : Code) : (s.complete v c).instRegs = s.instRegs := rfl
@[simp] theorem State.complete_slots (v : Word) (c : Code) : (s.complete v c).slots = s.slots := rfl
@[simp] theorem State.complete_coefRam (v : Word) (c : Code) : (s.complete v c).coefRam = s.coefRam := rfl
@[simp] theorem State.complete_epoch (v : Word) (c : Code) : (s.complete v c).epoch = s.epoch := rfl
@[simp] theorem State.complete_host (v : Word) (c : Code) : (s.complete v c).host = s.host := rfl
@[simp] theorem State.complete_sched (v : Word) (c : Code) : (s.complete v c).sched = s.sched := rfl
@[simp] theorem State.complete_reads (v : Word) (c : Code) : (s.complete v c).reads = s.reads := rfl

/-! ### completeIllegal -/

@[simp] theorem State.completeIllegal_params (v : Word) : (s.completeIllegal v).params = s.params := rfl
@[simp] theorem State.completeIllegal_rstN (v : Word) : (s.completeIllegal v).rstN = s.rstN := rfl
@[simp] theorem State.completeIllegal_opa (v : Word) : (s.completeIllegal v).opa = s.opa := rfl
@[simp] theorem State.completeIllegal_opb (v : Word) : (s.completeIllegal v).opb = s.opb := rfl
@[simp] theorem State.completeIllegal_result (v : Word) : (s.completeIllegal v).result = s.result := rfl
@[simp] theorem State.completeIllegal_code (v : Word) : (s.completeIllegal v).code = .illegalCmd := rfl
@[simp] theorem State.completeIllegal_lastOp (v : Word) : (s.completeIllegal v).lastOp = opField v := rfl
@[simp] theorem State.completeIllegal_lastInst (v : Word) : (s.completeIllegal v).lastInst = instField v := rfl
@[simp] theorem State.completeIllegal_err (v : Word) : (s.completeIllegal v).err = { s.err with illegal := true } := rfl
@[simp] theorem State.completeIllegal_pend (v : Word) : (s.completeIllegal v).pend = none := rfl
@[simp] theorem State.completeIllegal_instRegs (v : Word) : (s.completeIllegal v).instRegs = s.instRegs := rfl
@[simp] theorem State.completeIllegal_slots (v : Word) : (s.completeIllegal v).slots = s.slots := rfl
@[simp] theorem State.completeIllegal_coefRam (v : Word) : (s.completeIllegal v).coefRam = s.coefRam := rfl
@[simp] theorem State.completeIllegal_epoch (v : Word) : (s.completeIllegal v).epoch = s.epoch := rfl
@[simp] theorem State.completeIllegal_host (v : Word) : (s.completeIllegal v).host = s.host := rfl
@[simp] theorem State.completeIllegal_sched (v : Word) : (s.completeIllegal v).sched = s.sched := rfl
@[simp] theorem State.completeIllegal_reads (v : Word) : (s.completeIllegal v).reads = s.reads := rfl

/-! ### writeCoef -/

@[simp] theorem State.writeCoef_params (j : Nat) (v : Word) : (s.writeCoef j v).params = s.params := rfl
@[simp] theorem State.writeCoef_rstN (j : Nat) (v : Word) : (s.writeCoef j v).rstN = s.rstN := rfl
@[simp] theorem State.writeCoef_opa (j : Nat) (v : Word) : (s.writeCoef j v).opa = s.opa := rfl
@[simp] theorem State.writeCoef_opb (j : Nat) (v : Word) : (s.writeCoef j v).opb = s.opb := rfl
@[simp] theorem State.writeCoef_result (j : Nat) (v : Word) : (s.writeCoef j v).result = s.result := rfl
@[simp] theorem State.writeCoef_code (j : Nat) (v : Word) : (s.writeCoef j v).code = s.code := rfl
@[simp] theorem State.writeCoef_lastOp (j : Nat) (v : Word) : (s.writeCoef j v).lastOp = s.lastOp := rfl
@[simp] theorem State.writeCoef_lastInst (j : Nat) (v : Word) : (s.writeCoef j v).lastInst = s.lastInst := rfl
@[simp] theorem State.writeCoef_err (j : Nat) (v : Word) : (s.writeCoef j v).err = s.err := rfl
@[simp] theorem State.writeCoef_pend (j : Nat) (v : Word) : (s.writeCoef j v).pend = s.pend := rfl
@[simp] theorem State.writeCoef_instRegs (j : Nat) (v : Word) : (s.writeCoef j v).instRegs = s.instRegs := rfl
@[simp] theorem State.writeCoef_slots (j : Nat) (v : Word) : (s.writeCoef j v).slots = s.slots := rfl
@[simp] theorem State.writeCoef_coefRam (j : Nat) (v : Word) : (s.writeCoef j v).coefRam = s.coefRam.writeWord (coefAddr j) (word32 (sext s.params.accBits v)) := rfl
@[simp] theorem State.writeCoef_epoch (j : Nat) (v : Word) : (s.writeCoef j v).epoch = s.epoch := rfl
@[simp] theorem State.writeCoef_host (j : Nat) (v : Word) : (s.writeCoef j v).host = s.host := rfl
@[simp] theorem State.writeCoef_sched (j : Nat) (v : Word) : (s.writeCoef j v).sched = s.sched := rfl
@[simp] theorem State.writeCoef_reads (j : Nat) (v : Word) : (s.writeCoef j v).reads = s.reads := rfl

/-! ### turnTaken -/

@[simp] theorem State.turnTaken_params : (s.turnTaken).params = s.params := rfl
@[simp] theorem State.turnTaken_rstN : (s.turnTaken).rstN = s.rstN := rfl
@[simp] theorem State.turnTaken_opa : (s.turnTaken).opa = s.opa := rfl
@[simp] theorem State.turnTaken_opb : (s.turnTaken).opb = s.opb := rfl
@[simp] theorem State.turnTaken_result : (s.turnTaken).result = s.result := rfl
@[simp] theorem State.turnTaken_code : (s.turnTaken).code = s.code := rfl
@[simp] theorem State.turnTaken_lastOp : (s.turnTaken).lastOp = s.lastOp := rfl
@[simp] theorem State.turnTaken_lastInst : (s.turnTaken).lastInst = s.lastInst := rfl
@[simp] theorem State.turnTaken_err : (s.turnTaken).err = s.err := rfl
@[simp] theorem State.turnTaken_pend : (s.turnTaken).pend = s.pend := rfl
@[simp] theorem State.turnTaken_instRegs : (s.turnTaken).instRegs = s.instRegs := rfl
@[simp] theorem State.turnTaken_slots : (s.turnTaken).slots = s.slots := rfl
@[simp] theorem State.turnTaken_coefRam : (s.turnTaken).coefRam = s.coefRam := rfl
@[simp] theorem State.turnTaken_epoch : (s.turnTaken).epoch = s.epoch := rfl
@[simp] theorem State.turnTaken_host : (s.turnTaken).host = s.host := rfl
@[simp] theorem State.turnTaken_sched : (s.turnTaken).sched = s.sched.tail := rfl
@[simp] theorem State.turnTaken_reads : (s.turnTaken).reads = s.reads := rfl

/-! ### withPending -/

@[simp] theorem State.withPending_params (v : Word) : (s.withPending v).params = s.params := rfl
@[simp] theorem State.withPending_rstN (v : Word) : (s.withPending v).rstN = true := rfl
@[simp] theorem State.withPending_opa (v : Word) : (s.withPending v).opa = s.opa := rfl
@[simp] theorem State.withPending_opb (v : Word) : (s.withPending v).opb = s.opb := rfl
@[simp] theorem State.withPending_result (v : Word) : (s.withPending v).result = s.result := rfl
@[simp] theorem State.withPending_code (v : Word) : (s.withPending v).code = s.code := rfl
@[simp] theorem State.withPending_lastOp (v : Word) : (s.withPending v).lastOp = s.lastOp := rfl
@[simp] theorem State.withPending_lastInst (v : Word) : (s.withPending v).lastInst = s.lastInst := rfl
@[simp] theorem State.withPending_err (v : Word) : (s.withPending v).err = s.err := rfl
@[simp] theorem State.withPending_pend (v : Word) : (s.withPending v).pend = some v := rfl
@[simp] theorem State.withPending_instRegs (v : Word) : (s.withPending v).instRegs = s.instRegs := rfl
@[simp] theorem State.withPending_slots (v : Word) : (s.withPending v).slots = s.slots := rfl
@[simp] theorem State.withPending_coefRam (v : Word) : (s.withPending v).coefRam = s.coefRam := rfl
@[simp] theorem State.withPending_epoch (v : Word) : (s.withPending v).epoch = s.epoch := rfl
@[simp] theorem State.withPending_host (v : Word) : (s.withPending v).host = s.host := rfl
@[simp] theorem State.withPending_sched (v : Word) : (s.withPending v).sched = .engine :: s.sched := rfl
@[simp] theorem State.withPending_reads (v : Word) : (s.withPending v).reads = s.reads := rfl

end Sys2Proof.Machine
end

