-- ==== Sys2Proof/Laws/Arith.lean ====
section
/-! SUPPORT. Laws of the width operators (00_scope.md R19, R20). -/

namespace Sys2Proof.Machine

/-- wrap_N(v) is congruent to v modulo 2^N (R19). -/
theorem wrap_emod (n : Nat) (v : Int) : wrap n v % 2 ^ n = v % 2 ^ n := by
  simpa [wrap] using Int.bmod_emod (x := v) (m := 2 ^ n)

/-- wrap_N(v) is an N-bit integer (R19). -/
theorem wrap_fits {n : Nat} (hn : 0 < n) (v : Int) : fits n (wrap n v) := by
  obtain ⟨m, rfl⟩ : ∃ m, n = m + 1 := ⟨n - 1, by omega⟩
  have hpos : (0 : Int) < 2 ^ m := by positivity
  have h1 := Int.le_bmod (x := v) (m := 2 ^ (m + 1)) (by positivity)
  have h2 := Int.bmod_lt (x := v) (m := 2 ^ (m + 1)) (by positivity)
  have e : ((2 ^ (m + 1) : Nat) : Int) = 2 * 2 ^ m := by push_cast; ring
  rw [e] at h1 h2
  simp only [fits, wrap, Nat.add_sub_cancel]
  constructor <;> omega

/-- An N-bit integer is its own wrap. -/
theorem wrap_of_fits {n : Nat} (hn : 0 < n) {v : Int} (h : fits n v) : wrap n v = v := by
  obtain ⟨m, rfl⟩ : ∃ m, n = m + 1 := ⟨n - 1, by omega⟩
  simp only [fits, Nat.add_sub_cancel] at h
  have e : ((2 ^ (m + 1) : Nat) : Int) = 2 * 2 ^ m := by push_cast; ring
  unfold wrap
  apply Int.bmod_eq_of_le
  all_goals rw [e]; omega

/-- Two N-bit integers congruent modulo 2^N are equal: R19's "unique integer". -/
theorem fits_unique {n : Nat} (hn : 0 < n) {a b : Int} (ha : fits n a) (hb : fits n b)
    (h : a % 2 ^ n = b % 2 ^ n) : a = b := by
  have hab : wrap n a = wrap n b := by
    have : ((2 : Int) ^ n) = ((2 ^ n : Nat) : Int) := by push_cast; rfl
    rw [this] at h
    unfold wrap
    rw [← Int.emod_bmod, h, Int.emod_bmod]
  rwa [wrap_of_fits hn ha, wrap_of_fits hn hb] at hab

@[simp] theorem wrap_zero (n : Nat) : wrap n 0 = 0 := by simp [wrap]

@[simp] theorem wrap_wrap (n : Nat) (v : Int) : wrap n (wrap n v) = wrap n v := by simp [wrap]

theorem wrap_add_left (n : Nat) (a b : Int) : wrap n (wrap n a + b) = wrap n (a + b) := by simp [wrap]

theorem wrap_add_right (n : Nat) (a b : Int) : wrap n (a + wrap n b) = wrap n (a + b) := by simp [wrap]

theorem wrap_sub_left (n : Nat) (a b : Int) : wrap n (wrap n a - b) = wrap n (a - b) := by simp [wrap]

/-- The operands sext_N reads are N-bit integers. -/
theorem sext_fits {n : Nat} (hn : 0 < n) (b : Word) : fits n (sext n b) := wrap_fits hn _

/-- A narrower integer is also a wider one. -/
theorem fits_mono {m n : Nat} (hm : 0 < m) (h : m ≤ n) {v : Int} (hv : fits m v) : fits n v := by
  have : (2 : Int) ^ (m - 1) ≤ 2 ^ (n - 1) := pow_le_pow_right₀ (by norm_num) (by omega)
  simp only [fits] at *
  constructor <;> omega

/-- word32 and back: an N-bit integer, N at most 32, survives its 32-bit pattern. -/
theorem sext_word32 {n : Nat} (h : n ≤ 32) (v : Int) : sext n (word32 v) = wrap n v := by
  unfold sext wrap word32
  have hd : ((2 ^ n : Nat) : Int) ∣ ((2 ^ 32 : Nat) : Int) := by
    exact_mod_cast pow_dvd_pow 2 h
  rw [BitVec.toNat_ofInt]
  have : (0 : Int) ≤ v % ((2 ^ 32 : Nat) : Int) := Int.emod_nonneg _ (by positivity)
  rw [Int.toNat_of_nonneg this, ← Int.emod_bmod, Int.emod_emod_of_dvd _ hd, Int.emod_bmod]

/-- asr(v, s) is floor(v / 2^s) (R20). -/
theorem asr_floor (v : Int) (n : Nat) : asr v n * 2 ^ n ≤ v ∧ v < (asr v n + 1) * 2 ^ n := by
  have hp : (0 : Int) < 2 ^ n := by positivity
  refine ⟨Int.ediv_mul_le v hp.ne', ?_⟩
  exact Int.lt_ediv_add_one_mul_self v hp

theorem accBits_pos (p : Params) : 0 < p.accBits := by
  have := p.sampleBits_ok; have := p.accBits_ok; omega

theorem sampleBits_pos (p : Params) : 0 < p.sampleBits := by
  have := p.sampleBits_ok; omega

theorem wrapA_fits (p : Params) (v : Int) : fits p.accBits (wrapA p v) := wrap_fits (accBits_pos p) v

theorem narrow_fits (p : Params) (v : Int) : fits p.sampleBits (narrow p v) := wrap_fits (sampleBits_pos p) v

theorem wrapA_of_fits (p : Params) {v : Int} (h : fits p.accBits v) : wrapA p v = v :=
  wrap_of_fits (accBits_pos p) h

theorem narrow_of_fits (p : Params) {v : Int} (h : fits p.sampleBits v) : narrow p v = v :=
  wrap_of_fits (sampleBits_pos p) h

/-- A Sample is an Accumulator value. -/
theorem fits_accBits_of_sample (p : Params) {v : Int} (h : fits p.sampleBits v) : fits p.accBits v :=
  fits_mono (sampleBits_pos p) (by have := p.accBits_ok; omega) h

theorem sampleOperand_fits (s : State) : fits s.params.sampleBits s.sampleOperand :=
  sext_fits (sampleBits_pos _) _

end Sys2Proof.Machine
end

