-- ==== Sys2Proof/Laws/Filters.lean ====
section
/-! SUPPORT. Laws of the delay-line and delay-pair operations of the FIR and biquad steps (43_fir_filter.md R182, R183;
44_iir_biquad_cascade.md R204, R205). -/

namespace Sys2Proof.Machine

/-! ## FIR -/

@[simp] theorem shiftUp_length (h : List Int) (m : Nat) : (shiftUp h m).length = h.length := by
  induction m generalizing h with
  | zero => rfl
  | succ m ih => simp [shiftUp, ih]

/-- The shift, word by word: words 1 .. m take their left neighbour's old value, the others keep theirs (R182). -/
theorem shiftUp_getD (h : List Int) (m j : Nat) (hm : m < h.length) :
    (shiftUp h m).getD j 0 = if 1 ≤ j ∧ j ≤ m then h.getD (j - 1) 0 else h.getD j 0 := by
  induction m generalizing h with
  | zero => simp [shiftUp]; intro; omega
  | succ m ih =>
    rw [shiftUp, ih _ (by simp; omega)]
    simp only [List.getD_eq_getElem?_getD, List.getElem?_set]
    by_cases h1 : 1 ≤ j ∧ j ≤ m
    · rw [if_pos h1, if_neg (show ¬ m + 1 = j - 1 by omega), if_pos (show 1 ≤ j ∧ j ≤ m + 1 by omega)]
    · rw [if_neg h1]
      by_cases h2 : m + 1 = j
      · subst h2
        simp [hm]
      · rw [if_neg h2, if_neg (by omega)]

@[simp] theorem delayIn_length (n : Nat) (h : List Int) (x : Int) : (delayIn n h x).length = h.length := by
  unfold delayIn; split <;> simp

/-- The delay line after a step: the new input first, then the old words one place on, the oldest dropped; words from
N - 1 up untouched (R183). -/
theorem delayIn_getD (n : Nat) (h : List Int) (x : Int) (j : Nat) (hn : n ≤ h.length) :
    (delayIn n h x).getD j 0 = if j + 1 < n then (if j = 0 then x else h.getD (j - 1) 0) else h.getD j 0 := by
  unfold delayIn
  split
  · rename_i h2
    have key := shiftUp_getD h (n - 2) j (by omega)
    simp only [List.getD_eq_getElem?_getD, List.getElem?_set, shiftUp_length] at key ⊢
    by_cases hj : j = 0
    · subst hj
      simp [show 0 < h.length by omega, show 1 < n by omega]
    · rw [if_neg (by omega), key]
      by_cases h3 : j + 1 < n
      · rw [if_pos (by omega), if_pos h3, if_neg hj]
      · rw [if_neg (by omega), if_neg h3]
  · rename_i h2
    rw [if_neg (by omega)]

/-! ## Biquad -/

@[simp] theorem runSections_length (p : Params) (c : Nat → Int) (h : List Int) (x : Int) (m : Nat) :
    (runSections p c h x m).1.length = h.length := by
  induction m with
  | zero => rfl
  | succ m ih => simp [runSections, runSection, ih]

/-- Sections 0 .. m-1 touch only the delay pairs 0 .. 2m-1 (R204). -/
theorem runSections_getD_ge (p : Params) (c : Nat → Int) (h : List Int) (x : Int) (m j : Nat) (hj : 2 * m ≤ j) :
    (runSections p c h x m).1.getD j 0 = h.getD j 0 := by
  induction m with
  | zero => rfl
  | succ m ih =>
    rw [← ih (by omega)]
    simp only [runSections, runSection, List.getD_eq_getElem?_getD, List.getElem?_set]
    rw [if_neg (by omega), if_neg (by omega)]

/-- Setting a word to a fitting value keeps every word fitting. -/
theorem fits_of_mem_set {n : Nat} {h : List Int} {i : Nat} {v : Int} (hv : fits n v) (hh : ∀ w ∈ h, fits n w) :
    ∀ w ∈ h.set i v, fits n w := by
  intro w hw
  rcases List.mem_or_eq_of_mem_set hw with hw | rfl
  · exact hh w hw
  · exact hv

theorem fits_getD {n : Nat} {h : List Int} (hh : ∀ w ∈ h, fits n w) (i : Nat) : fits n (h.getD i 0) := by
  rw [List.getD_eq_getElem?_getD]
  cases hi : h[i]? with
  | none => simp [fits]
  | some w => simpa using hh w (List.mem_of_getElem? hi)

/-- Every delay word and inter-section value is an A-bit value (R207). -/
theorem runSections_fits (p : Params) (c : Nat → Int) {h : List Int} {x : Int} (m : Nat) (hx : fits p.accBits x)
    (hh : ∀ w ∈ h, fits p.accBits w) :
    (∀ w ∈ (runSections p c h x m).1, fits p.accBits w) ∧ fits p.accBits (runSections p c h x m).2 := by
  induction m with
  | zero => exact ⟨hh, hx⟩
  | succ m ih =>
    refine ⟨?_, wrapA_fits p _⟩
    exact fits_of_mem_set (wrapA_fits p _) (fits_of_mem_set (fits_getD ih.1 _) ih.1)

/-- FIR sums are A-bit values. -/
theorem shiftUp_fits {n : Nat} {h : List Int} (m : Nat) (hh : ∀ w ∈ h, fits n w) : ∀ w ∈ shiftUp h m, fits n w := by
  induction m generalizing h with
  | zero => exact hh
  | succ m ih => exact ih (fits_of_mem_set (fits_getD hh _) hh)

theorem delayIn_fits {n : Nat} {h : List Int} {x : Int} (taps : Nat) (hx : fits n x) (hh : ∀ w ∈ h, fits n w) :
    ∀ w ∈ delayIn taps h x, fits n w := by
  unfold delayIn
  split
  · exact fits_of_mem_set hx (shiftUp_fits _ hh)
  · exact hh

end Sys2Proof.Machine
end

