-- ==== Sys2Proof/Laws/Memory.lean ====
section
/-! SUPPORT. Laws of coefficient RAM: reading after writing, and the canonical form every operation keeps. -/

namespace Sys2Proof.Machine

/-! ## One byte -/

/-- A byte reads as written, and every other byte as before. -/
theorem Memory.find?_writeByte (m : Memory) (a : Nat) (b : Byte) (a' : Nat) (h : m.Pairwise fun x y => x.1 < y.1) :
    Memory.find? (Memory.writeByte m a b) a' = if a' = a then some b else Memory.find? m a' := by
  induction m with
  | nil =>
    simp only [Memory.writeByte, Memory.find?]
    split <;> simp_all [eq_comm]
  | cons c m ih =>
    obtain ⟨c, d⟩ := c
    simp only [List.pairwise_cons] at h
    have absent : ∀ (l : Memory) (x : Nat), (∀ e ∈ l, x < e.1) → Memory.find? l x = none := by
      intro l x hl
      induction l with
      | nil => rfl
      | cons e l ihl =>
        have h1 := hl e (by simp)
        simp only [Memory.find?]
        rw [if_neg (by omega)]
        exact ihl fun e he => hl e (by simp [he])
    simp only [Memory.writeByte]
    split
    · rename_i hac
      simp only [Memory.find?]
      by_cases h1 : a' = a
      · simp [h1]
      · simp [h1, Ne.symm h1]
    · split
      · rename_i _ hac
        subst hac
        simp only [Memory.find?]
        by_cases h1 : a' = a
        · simp [h1]
        · simp [h1, Ne.symm h1]
      · rename_i h1 h2
        simp only [Memory.find?, ih h.2]
        by_cases h3 : c = a'
        · subst h3; simp [Ne.symm h2]
        · simp [h3]

theorem Memory.mem_writeByte {m : Memory} {a : Nat} {b : Byte} {e : Host.Cell} (h : e ∈ Memory.writeByte m a b) :
    e = (a, b) ∨ e ∈ m := by
  induction m with
  | nil => simpa [Memory.writeByte] using h
  | cons c m ih =>
    obtain ⟨c, d⟩ := c
    simp only [Memory.writeByte] at h
    split at h
    · simpa using h
    · split at h
      · simp only [List.mem_cons] at h ⊢
        tauto
      · simp only [List.mem_cons] at h ⊢
        rcases h with h | h
        · tauto
        · rcases ih h with h | h <;> tauto

/-- Writing a byte keeps the addresses strictly rising. -/
theorem Memory.writeByte_pairwise {m : Memory} (a : Nat) (b : Byte) (h : m.Pairwise fun x y => x.1 < y.1) :
    (Memory.writeByte m a b).Pairwise fun x y => x.1 < y.1 := by
  induction m with
  | nil => simp [Memory.writeByte]
  | cons c m ih =>
    obtain ⟨c, d⟩ := c
    simp only [List.pairwise_cons] at h
    simp only [Memory.writeByte]
    split
    · rename_i hac
      simp only [List.pairwise_cons, List.mem_cons]
      refine ⟨?_, h⟩
      rintro e (rfl | he)
      · exact hac
      · exact lt_trans hac (h.1 e he)
    · split
      · rename_i _ hac
        subst hac
        simp only [List.pairwise_cons]
        exact h
      · rename_i h1 h2
        simp only [List.pairwise_cons]
        refine ⟨?_, ih h.2⟩
        intro e he
        rcases Memory.mem_writeByte he with rfl | he
        · simp only; omega
        · exact h.1 e he

/-! ## The canonical form -/

theorem Memory.wf_iff (p : Params) (m : Memory) :
    m.wf p = true ↔ (m.Pairwise fun x y => x.1 < y.1) ∧ ∀ c ∈ m, coefAddr 0 ≤ c.1 ∧ c.1 < coefAddr p.coefDepth := by
  simp [Memory.wf]

theorem Memory.writeByte_wf {p : Params} {m : Memory} {a : Nat} (b : Byte) (ha : coefAddr 0 ≤ a ∧ a < coefAddr p.coefDepth)
    (h : m.wf p = true) : (Memory.writeByte m a b).wf p = true := by
  rw [Memory.wf_iff] at *
  refine ⟨Memory.writeByte_pairwise a b h.1, ?_⟩
  intro c hc
  rcases Memory.mem_writeByte hc with rfl | hc
  · exact ha
  · exact h.2 c hc

/-- Writing a coefficient word keeps the canonical form. -/
theorem Memory.writeWord_wf {p : Params} {m : Memory} {j : Nat} (v : Word) (hj : j < p.coefDepth) (h : m.wf p = true) :
    (Memory.writeWord m (coefAddr j) v).wf p = true := by
  unfold Memory.writeWord
  have : coefAddr 0 ≤ coefAddr j ∧ coefAddr j + 3 < coefAddr p.coefDepth := by unfold coefAddr; omega
  refine Memory.writeByte_wf _ ?_ (Memory.writeByte_wf _ ?_ (Memory.writeByte_wf _ ?_ (Memory.writeByte_wf _ ?_ h)))
  all_goals omega

/-- The one operation of State that writes coefficient RAM keeps its canonical form. -/
theorem State.writeCoef_wf {s : State} {j : Nat} (v : Word) (hj : j < s.params.coefDepth)
    (h : s.coefRam.wf s.params = true) : (s.writeCoef j v).coefRam.wf s.params = true :=
  Memory.writeWord_wf _ hj h

/-- The reset machine's coefficient RAM is in canonical form. -/
theorem State.resetOf_coefRam_wf (p : Params) (e : Nat) : (State.resetOf p e).coefRam.wf p = true := rfl

/-! ## Words -/

/-- After a word write each of its bytes is its lane, every other byte is as before (R69). -/
theorem Memory.find?_writeWord {m : Memory} (a : Nat) (v : Word) (a' : Nat) (h : m.Pairwise fun x y => x.1 < y.1) :
    Memory.find? (Memory.writeWord m a v) a' =
      if a ≤ a' ∧ a' < a + 4 then some (byteLane v (a' - a)) else Memory.find? m a' := by
  unfold Memory.writeWord
  have h0 := Memory.writeByte_pairwise a (byteLane v 0) h
  have h1 := Memory.writeByte_pairwise (a + 1) (byteLane v 1) h0
  have h2 := Memory.writeByte_pairwise (a + 2) (byteLane v 2) h1
  rw [Memory.find?_writeByte _ _ _ _ h2, Memory.find?_writeByte _ _ _ _ h1, Memory.find?_writeByte _ _ _ _ h0,
    Memory.find?_writeByte _ _ _ _ h]
  by_cases hr : a ≤ a' ∧ a' < a + 4
  · rw [if_pos hr]
    obtain ⟨i, rfl, hi⟩ : ∃ i, a' = a + i ∧ i < 4 := ⟨a' - a, by omega, by omega⟩
    have : i = 0 ∨ i = 1 ∨ i = 2 ∨ i = 3 := by omega
    rcases this with rfl | rfl | rfl | rfl <;> simp
  · rw [if_neg hr, if_neg (by omega), if_neg (by omega), if_neg (by omega), if_neg (by omega)]

/-- Four byte lanes make the word (R69). -/
theorem byteLanes_append (v : Word) : byteLane v 3 ++ byteLane v 2 ++ byteLane v 1 ++ byteLane v 0 = v := by
  unfold byteLane
  ext i hi
  simp only [BitVec.getElem_append, BitVec.getElem_extractLsb']
  rcases lt_or_ge i 8 with h | h
  · simp [h]
    exact BitVec.getLsbD_eq_getElem (by omega)
  · rcases lt_or_ge i 16 with h' | h'
    · simp [show ¬ i < 8 by omega, show i - 8 < 8 by omega, show 8 + (i - 8) = i by omega]
      exact BitVec.getLsbD_eq_getElem (by omega)
    · rcases lt_or_ge i 24 with h'' | h''
      · simp [show ¬ i < 8 by omega, show ¬ i - 8 < 8 by omega, show i - 8 - 8 < 8 by omega,
          show 16 + (i - 8 - 8) = i by omega]
        exact BitVec.getLsbD_eq_getElem (by omega)
      · simp [show ¬ i < 8 by omega, show ¬ i - 8 < 8 by omega, show ¬ i - 8 - 8 < 8 by omega,
          show 24 + (i - 8 - 8 - 8) = i by omega, hi]

/-! ## Frames -/

/-- A byte is read from coefficient RAM and the free values of the epoch alone. -/
theorem State.byteAt_congr {s t : State} (h : t.coefRam = s.coefRam) (he : t.epoch = s.epoch) (a : Nat) :
    t.byteAt a = s.byteAt a := by
  simp [State.byteAt, h, he]

/-- A coefficient is read from coefficient RAM, the free values of the epoch and the width A alone. -/
theorem State.coef_congr {s t : State} (h : t.coefRam = s.coefRam) (he : t.epoch = s.epoch) (hp : t.params = s.params)
    (j : Nat) : t.coef j = s.coef j := by
  simp [State.coef, State.wordAt, State.byteAt_congr h he, hp]

end Sys2Proof.Machine
end

