-- ==== Sys2Proof/Laws/Access.lean ====
section
/-! SUPPORT. Laws of reading slots and configuration registers after each update. -/

namespace Sys2Proof.Machine

/-- A slot reads as written; a slot number that does not exist is not written. -/
theorem State.slot_setSlot (s : State) (k : Nat) (sl : Slot) (j : Nat) :
    (s.setSlot k sl).slot j = if j = k ∧ k < s.slots.length then sl else s.slot j := by
  simp only [State.slot, State.setSlot_slots, List.getD_eq_getElem?_getD, List.getElem?_set]
  by_cases h : k = j
  · subst h
    by_cases hk : k < s.slots.length <;> simp [hk]
  · simp [h, Ne.symm h]

theorem State.slot_setSlot_self {s : State} {k : Nat} (sl : Slot) (h : k < s.slots.length) :
    (s.setSlot k sl).slot k = sl := by simp [State.slot_setSlot, h]

theorem State.slot_setSlot_ne (s : State) {k j : Nat} (sl : Slot) (h : j ≠ k) : (s.setSlot k sl).slot j = s.slot j := by
  simp [State.slot_setSlot, h]

/-- Configuration registers read as written. -/
theorem State.instReg_setInstReg (s : State) (k : Nat) (r : InstRegs) (j : Nat) :
    (s.setInstReg k r).instReg j = if j = k ∧ k < s.instRegs.length then r else s.instReg j := by
  simp only [State.instReg, State.setInstReg_instRegs, List.getD_eq_getElem?_getD, List.getElem?_set]
  by_cases h : k = j
  · subst h
    by_cases hk : k < s.instRegs.length <;> simp [hk]
  · simp [h, Ne.symm h]

theorem State.slot_congr {s t : State} (h : t.slots = s.slots) (k : Nat) : t.slot k = s.slot k := by
  simp [State.slot, h]

theorem State.instReg_congr {s t : State} (h : t.instRegs = s.instRegs) (k : Nat) : t.instReg k = s.instReg k := by
  simp [State.instReg, h]

@[simp] theorem State.slot_complete (s : State) (v : Word) (c : Code) (k : Nat) : (s.complete v c).slot k = s.slot k := rfl

@[simp] theorem State.slot_setResult (s : State) (y : Int) (k : Nat) : (s.setResult y).slot k = s.slot k := rfl

/-- The slot read at an existing number is one of the slots. -/
theorem State.slot_mem {s : State} {k : Nat} (h : k < s.slots.length) : s.slot k ∈ s.slots := by
  simp [State.slot, List.getD_eq_getElem?_getD, List.getElem?_eq_getElem h]

end Sys2Proof.Machine
end

