-- ==== Sys2Proof/Laws/Ops.lean ====
section
/-! SUPPORT. What each shared operation can do, said once: the slot check, the construction outcomes, the end of a PROCESS,
the write drops, and the turns. -/

namespace Sys2Proof.Machine

/-- The slot check: BAD_INST at or above NUM_INST, the body below it (R118, R238). -/
theorem State.onSlot_of_ge {s : State} {v : Word} {k : Nat} {body : State → State} (h : s.params.numInst ≤ k) :
    s.onSlot v k body = s.complete v .badInst := if_pos h

theorem State.onSlot_of_lt {s : State} {v : Word} {k : Nat} {body : State → State} (h : k < s.params.numInst) :
    s.onSlot v k body = body s := if_neg (by omega)

/-- The two outcomes of a construction (R120). -/
theorem State.constructIf_cases (s : State) (v : Word) (k : Nat) (legal : Bool) (kind : Kind) (count base thr : Nat) :
    (legal = true ∧ s.constructIf v k legal kind count base thr =
        (s.setSlot k (Slot.constructed s.params kind count base thr)).complete v .ok) ∨
    (legal = false ∧ s.constructIf v k legal kind count base thr =
        (s.setSlot k (s.slot k).unbind).complete v .invalidParam) := by
  cases legal <;> simp [State.constructIf, State.construct, State.failConstruct]

/-- What a command does, whichever it is: it completes with some code, and what changed before the completion is nothing,
RESULT alone (the scaler), one slot, or one slot and RESULT (a PROCESS); an instance command touches its own slot only,
and only if that slot exists. Every per-command frame and every invariant follows from these cases. -/
theorem exec_cases (i : Instr) (s : State) :
    ∃ code, exec i s = .next (s.complete (encode i) code) ∨
      (∃ y, exec i s = .next ((s.setResult y).complete (encode i) .ok) ∧ i.slot? = none) ∨
      (∃ k sl, i.slot? = some k ∧ k < s.params.numInst ∧
        exec i s = .next ((s.setSlot k sl).complete (encode i) code)) ∨
      (∃ k sl y, i = .process k ∧ k < s.params.numInst ∧
        exec i s = .next (((s.setSlot k sl).setResult y).complete (encode i) code)) := by
  have init : ∀ (k : Nat) (j : Instr) (legal : Bool) (kind : Kind) (c b t : Nat), j.slot? = some k → exec j s =
      .next (s.onSlot (encode j) k fun s => s.constructIf (encode j) k legal kind c b t) → ∃ code,
      exec j s = .next (s.complete (encode j) code) ∨
      (∃ y, exec j s = .next ((s.setResult y).complete (encode j) .ok) ∧ j.slot? = none) ∨
      (∃ k sl, j.slot? = some k ∧ k < s.params.numInst ∧
        exec j s = .next ((s.setSlot k sl).complete (encode j) code)) ∨
      (∃ k sl y, j = .process k ∧ k < s.params.numInst ∧
        exec j s = .next (((s.setSlot k sl).setResult y).complete (encode j) code)) := by
    intro k j legal kind c b t hs he
    by_cases hk : s.params.numInst ≤ k
    · exact ⟨.badInst, .inl (by rw [he, State.onSlot_of_ge hk])⟩
    · rw [State.onSlot_of_lt (by omega)] at he
      rcases State.constructIf_cases s (encode j) k legal kind c b t with ⟨_, h⟩ | ⟨_, h⟩
      · exact ⟨.ok, .inr (.inr (.inl ⟨k, _, hs, by omega, by rw [he, h]⟩))⟩
      · exact ⟨.invalidParam, .inr (.inr (.inl ⟨k, _, hs, by omega, by rw [he, h]⟩))⟩
  have stub : ∀ (k : Nat) (j : Instr), exec j s = .next (s.stub (encode j) k) →
      ∃ code, exec j s = .next (s.complete (encode j) code) := by
    intro k j he
    by_cases hk : s.params.numInst ≤ k
    · exact ⟨.badInst, by rw [he, State.stub, State.onSlot_of_ge hk]⟩
    · exact ⟨.notImplemented, by rw [he, State.stub, State.onSlot_of_lt (by omega)]⟩
  cases i with
  | nop => exact ⟨.ok, .inl rfl⟩
  | initMa k => exact init k (.initMa k) _ _ _ _ _ rfl rfl
  | initFir k => exact init k (.initFir k) _ _ _ _ _ rfl rfl
  | initBq k => exact init k (.initBq k) _ _ _ _ _ rfl rfl
  | initIirDf k => exact (stub k _ rfl).imp fun _ h => .inl h
  | initIirLp k => exact (stub k _ rfl).imp fun _ h => .inl h
  | initIirBp k => exact (stub k _ rfl).imp fun _ h => .inl h
  | initIirBs k => exact (stub k _ rfl).imp fun _ h => .inl h
  | process k =>
    by_cases hk : s.params.numInst ≤ k
    · exact ⟨.badInst, .inl (by simp [exec, execProcess, State.onSlot_of_ge hk])⟩
    · cases hs : s.kindStep k with
      | none => exact ⟨.notBound, .inl (by simp [exec, execProcess, State.onSlot_of_lt (show k < s.params.numInst by omega), hs])⟩
      | some r =>
        exact ⟨Code.ofValid r.valid, .inr (.inr (.inr ⟨k, r.slot, r.y, rfl, by omega, by
          simp [exec, execProcess, State.onSlot_of_lt (show k < s.params.numInst by omega), hs, State.finishProcess]⟩))⟩
  | release k =>
    by_cases hk : s.params.numInst ≤ k
    · exact ⟨.badInst, .inl (by simp [exec, execRelease, State.onSlot_of_ge hk])⟩
    · exact ⟨.ok, .inr (.inr (.inl ⟨k, (s.slot k).unbind, rfl, by omega, by
        simp [exec, execRelease, State.onSlot_of_lt (show k < s.params.numInst by omega)]⟩))⟩
  | fxTofix => exact ⟨.ok, .inr (.inl ⟨_, rfl, rfl⟩)⟩
  | fxFromfix => exact ⟨.ok, .inr (.inl ⟨_, rfl, rfl⟩)⟩
  | fxMul => exact ⟨.ok, .inr (.inl ⟨_, rfl, rfl⟩)⟩
  | fxNarrow => exact ⟨.ok, .inr (.inl ⟨_, rfl, rfl⟩)⟩

/-- What a host write does (R72, R115). -/
theorem State.busWrite_cases (s : State) (a : Addr) (size : Size) (v : Word) :
    (s.writeFate a size = .dropBus ∧ s.busWrite a size v = s.flagBus) ∨
    (s.writeFate a size = .dropBusy ∧ s.busWrite a size v = s.flagBusyWr) ∨
    (∃ r, s.writeFate a size = .perform r ∧ s.busWrite a size v = s.storeReg r v) := by
  unfold State.busWrite
  cases s.writeFate a size <;> simp

/-- A performed write is on a mapped, writable register by an aligned 32-bit access, and while a command is pending only
on ERR. -/
theorem State.perform_iff (s : State) (a : Addr) (size : Size) (r : Reg) :
    s.writeFate a size = .perform r ↔
      takesEffect a size = true ∧ regAt s.params a.toNat = some r ∧ r.access ≠ .ro ∧
        (s.busy = true → r.access = .w1c) := by
  unfold State.writeFate
  cases takesEffect a size with
  | false => simp
  | true =>
    cases h : regAt s.params a.toNat with
    | none => simp
    | some r' =>
      cases h' : r'.access <;> cases hb : s.busy <;> simp [h'] <;> rintro rfl <;> simp_all

/-- A mapped slot register belongs to an existing slot, a mapped coefficient word to coefficient RAM (R64). -/
theorem regAt_bounds {p : Params} {a : Nat} {r : Reg} (h : regAt p a = some r) :
    (∀ k, r = .cfg k ∨ r = .coef k ∨ r = .state k ∨ r = .idx k ∨ r = .sum k ∨ r = .bound k → k < p.numInst) ∧
      ∀ j, r = .coefWord j → j < p.coefDepth := by
  unfold regAt at h
  split at h
  · unfold globalReg at h
    split at h <;> simp at h <;> subst h <;> simp
  · split at h
    · have hk : (a - 0x100) / 0x20 < p.numInst := by omega
      unfold blockReg at h
      split at h <;> simp at h <;> subst h <;> simp [hk]
    · split at h
      · rename_i h3
        simp at h
        subst h
        simp only [coefAddr] at h3
        simp [coefAddr]
        omega
      · simp at h

/-- One step is one turn: the engine's, with a command pending or not, or the host's, with an operation left or not. -/
theorem step_cases (s : State) :
    (s.turn = .engine ∧ step s = engineTurn s.turnTaken) ∨ (s.turn = .host ∧ step s = hostTurn s.turnTaken) := by
  unfold step takeTurn
  cases s.turn <;> simp

end Sys2Proof.Machine
end

