-- ==== Sys2Proof/Laws/PerInstr.lean ====
section
/-! SUPPORT. Per-instruction laws about the commands as syntax: the fields of a command's word (30_encoding.md R91, R94, R95). -/

namespace Sys2Proof.Laws.EncodedFields

open Sys2Proof

/-- A well-formed command's word holds its opcode in OP, its slot number (0 if it names none) in INST, and 0 in RSV0 and
RSV1 (R91). -/
def Statement (i : Instr) : Prop :=
  i.wellFormed = true →
    opField (encode i) = i.opcode ∧ (instField (encode i)).toNat = i.slot?.getD 0 ∧
      rsv0Field (encode i) = 0 ∧ rsv1Field (encode i) = 0

/-- The word of an opcode and a slot number, field by field. -/
theorem fields_of_bits (op : Nibble) (k : Nat) (hk : k < 16) :
    let v : Word := (0 : BitVec 20) ++ BitVec.ofNat 4 k ++ (0 : Nibble) ++ op
    opField v = op ∧ (instField v).toNat = k ∧ rsv0Field v = 0 ∧ rsv1Field v = 0 := by
  interval_cases k <;> revert op <;> decide

theorem nop : Statement .nop := fun _ => by decide
theorem initMa (k : Nat) : Statement (.initMa k) := fun h => fields_of_bits 0x1 k (of_decide_eq_true h)
theorem initFir (k : Nat) : Statement (.initFir k) := fun h => fields_of_bits 0x2 k (of_decide_eq_true h)
theorem initBq (k : Nat) : Statement (.initBq k) := fun h => fields_of_bits 0x3 k (of_decide_eq_true h)
theorem initIirDf (k : Nat) : Statement (.initIirDf k) := fun h => fields_of_bits 0x4 k (of_decide_eq_true h)
theorem initIirLp (k : Nat) : Statement (.initIirLp k) := fun h => fields_of_bits 0x5 k (of_decide_eq_true h)
theorem initIirBp (k : Nat) : Statement (.initIirBp k) := fun h => fields_of_bits 0x6 k (of_decide_eq_true h)
theorem initIirBs (k : Nat) : Statement (.initIirBs k) := fun h => fields_of_bits 0x7 k (of_decide_eq_true h)
theorem process (k : Nat) : Statement (.process k) := fun h => fields_of_bits 0x8 k (of_decide_eq_true h)
theorem release (k : Nat) : Statement (.release k) := fun h => fields_of_bits 0x9 k (of_decide_eq_true h)
theorem fxTofix : Statement .fxTofix := fun _ => by decide
theorem fxFromfix : Statement .fxFromfix := fun _ => by decide
theorem fxMul : Statement .fxMul := fun _ => by decide
theorem fxNarrow : Statement .fxNarrow := fun _ => by decide

end Sys2Proof.Laws.EncodedFields
end

