-- ==== Sys2Proof/Laws/Turns.lean ====
section
/-! SUPPORT. What a turn can do: the host's operations one by one, the engine's completion, and which fields each leaves alone. -/

namespace Sys2Proof.Machine

/-- A command always completes (R242). -/
theorem exec_next (i : Instr) (s : State) : ∃ t, exec i s = .next t := by
  obtain ⟨c, h | ⟨_, h, _⟩ | ⟨_, _, _, _, h⟩ | ⟨_, _, _, _, _, h⟩⟩ := exec_cases i s <;> exact ⟨_, h⟩

/-- So does a command word, legal or not. -/
theorem execute_next (v : Word) (s : State) : ∃ t, execute v s = .next t := by
  unfold execute
  split
  · exact ⟨_, rfl⟩
  · exact exec_next _ s

/-- The two cases of a command word (R118). -/
theorem execute_cases (v : Word) (s : State) :
    (∃ e, decode v = .error e ∧ execute v s = .next (s.completeIllegal v)) ∨
    (∃ i, decode v = .ok i ∧ execute v s = exec i s) := by
  unfold execute
  cases decode v <;> simp

/-- What a completion leaves outside the block and of the reset input. -/
theorem execute_outside {v : Word} {s t : State} (h : execute v s = .next t) :
    t.pend = none ∧ t.rstN = s.rstN ∧ t.host = s.host ∧ t.sched = s.sched ∧ t.reads = s.reads := by
  rcases execute_cases v s with ⟨e, _, g⟩ | ⟨i, _, g⟩ <;> rw [g] at h
  · cases h; simp
  · obtain ⟨c, g | ⟨_, g, _⟩ | ⟨_, _, _, _, g⟩ | ⟨_, _, _, _, _, g⟩⟩ := exec_cases i s <;> rw [g] at h <;> cases h <;>
      simp

/-- A transaction answers a next state exactly out of reset (R261). -/
theorem State.transaction_next {s u t : State} : s.transaction u = .next t ↔ s.rstN = true ∧ u = t := by
  unfold State.transaction
  by_cases h : s.rstN = true
  · rw [if_pos h]
    exact ⟨fun g => ⟨h, by injection g⟩, fun g => by rw [g.2]⟩
  · rw [if_neg h]
    exact ⟨fun g => (nomatch g), fun g => absurd g.1 h⟩

theorem State.transaction_of_up {s u : State} (h : s.rstN = true) : s.transaction u = .next u :=
  State.transaction_next.mpr ⟨h, rfl⟩

/-- The host's turn with an operation left. -/
theorem hostTurn_cons {s : State} {op : HostOp} {rest : List HostOp} (h : s.host = op :: rest) :
    hostTurn s = hostOp op { s with host := rest } := by
  unfold hostTurn; rw [h]

/-- The host's turn with nothing left. -/
theorem hostTurn_nil {s : State} (h : s.host = []) : hostTurn s = .next s := by
  unfold hostTurn; rw [h]

theorem engineTurn_some {s : State} {v : Word} (h : s.pend = some v) : engineTurn s = execute v s := by
  unfold engineTurn; rw [h]

theorem engineTurn_none {s : State} (h : s.pend = none) : engineTurn s = .next s := by
  unfold engineTurn; rw [h]

theorem step_of_host {s : State} (h : s.turn = .host) : step s = hostTurn s.turnTaken := by
  unfold step takeTurn; rw [h]

theorem step_of_engine {s : State} (h : s.turn = .engine) : step s = engineTurn s.turnTaken := by
  unfold step takeTurn; rw [h]

/-- Whose turn it is does not depend on the rest of the state. -/
theorem State.turn_cons {s : State} {u : Turn} {rest : List Turn} (h : s.sched = u :: rest) : s.turn = u := by
  unfold State.turn; rw [h]

theorem State.turn_nil {s : State} (h : s.sched = []) : s.turn = if s.busy then .engine else .host := by
  unfold State.turn; rw [h]

/-- A host write leaves the slots, the results, the parameters and everything outside the block alone, and a pending command
pending (R115). -/
theorem State.busWrite_frame (s : State) (a : Addr) (size : Size) (v : Word) :
    let t := s.busWrite a size v
    t.params = s.params ∧ t.rstN = s.rstN ∧ t.result = s.result ∧ t.code = s.code ∧ t.lastOp = s.lastOp ∧
      t.lastInst = s.lastInst ∧ t.slots = s.slots ∧ t.epoch = s.epoch ∧ t.host = s.host ∧ t.sched = s.sched ∧
      t.reads = s.reads ∧ (s.busy = true → t = { s with err := t.err }) := by
  rcases State.busWrite_cases s a size v with ⟨_, g⟩ | ⟨_, g⟩ | ⟨r, h, g⟩ <;> rw [g]
  · simp [State.flagBus]
  · simp [State.flagBusyWr]
  · rw [State.perform_iff] at h
    obtain ⟨_, _, h1, h2⟩ := h
    cases r <;> simp [State.storeReg, Reg.access, State.setInstReg, State.writeCoef] at h1 h2 ⊢ <;> simp [h2]

/-- Polling repeats exactly while a command is pending (R46, R100). -/
theorem State.pollOnce_eq (s : State) : s.pollOnce = if s.busy then { s with host := .poll :: s.host } else s := by
  have h : (s.busRead 0x020 .word).getLsbD 0 = s.busy := by
    show (State.statusWord s).getLsbD 0 = s.busy
    rw [State.statusWord, BitVec.getLsbD_append]
    simp [bit]
  unfold State.pollOnce
  rw [h]

/-- What polling does: nothing, or the poll stays the host's next operation (R100). -/
theorem State.pollOnce_cases (s : State) : s.pollOnce = s ∨ s.pollOnce = { s with host := .poll :: s.host } := by
  unfold State.pollOnce
  split <;> simp

/-- A host operation other than driving reset leaves the slots, the results, the parameters, the reset level and the schedule
alone. -/
theorem hostOp_frame {op : HostOp} {s t : State} (hop : ∀ level, op ≠ .rstN level) (h : hostOp op s = .next t) :
    s.rstN = true ∧ t.params = s.params ∧ t.rstN = s.rstN ∧ t.result = s.result ∧ t.code = s.code ∧
      t.lastOp = s.lastOp ∧ t.lastInst = s.lastInst ∧ t.slots = s.slots ∧ t.epoch = s.epoch ∧ t.sched = s.sched := by
  cases op with
  | read a size => obtain ⟨hr, rfl⟩ := State.transaction_next.mp h; simp [hr]
  | write a size v =>
    obtain ⟨hr, rfl⟩ := State.transaction_next.mp h
    obtain ⟨h1, h2, h3, h4, h5, h6, h7, h8, h9, h10, h11, _⟩ := State.busWrite_frame s a size v
    exact ⟨hr, h1, h2, h3, h4, h5, h6, h7, h8, h10⟩
  | poll =>
    obtain ⟨hr, rfl⟩ := State.transaction_next.mp h
    rcases State.pollOnce_cases s with e | e <;> simp [e, hr]
  | rstN level => exact absurd rfl (hop level)

/-- The fields driving reset sets, and those it leaves (R261, R262). -/
theorem State.withResetValues_eq (s : State) (level : Bool) :
    s.withResetValues level = { State.resetOf s.params (s.epoch + 1) with
      rstN := level, host := s.host, sched := s.sched, reads := s.reads } := rfl

theorem State.driveReset_cases (s : State) (level : Bool) :
    (level = true ∧ s.rstN = true ∧ s.driveReset level = s) ∨
    ((level = false ∨ s.rstN = false) ∧ s.driveReset level = s.withResetValues level) := by
  unfold State.driveReset
  cases level <;> cases h : s.rstN <;> simp

end Sys2Proof.Machine
end

