-- ==== Sys2Proof/Certificates/Slice0/Obligations.lean ====
section
/-! DEFINITION. The statements for the provers. Each docstring names the rules of spec/ it formalises. -/

open Sys2Proof Sys2Proof.Machine

/-! ## Encoding (30_encoding.md) -/

/-- R91, R94: the word of every well-formed command decodes to that command, every slot number 0..15 included. -/
def Obligations.DecodeOfEncodeIsTheCommand : Prop :=
  ∀ i : Instr, i.wellFormed = true → decode (encode i) = .ok i

/-- R91, R92: a word the decoder accepts is the encoding of the one command it stands for; no bit of it is ignored. -/
def Obligations.EncodeOfDecodeIsTheWord : Prop :=
  ∀ (v : Word) (i : Instr), decode v = .ok i → i.wellFormed = true ∧ encode i = v

/-- R96: the decoder selects exactly by the mask and match values: an instance opcode by `v & 0xFFFFF0FF`, a no-instance
opcode by the whole word; the slot is v[11:8]; a word that matches no row is illegal; and the table's rows hold exactly
these values. -/
def Obligations.DecoderSelectsByMaskAndMatch : Prop :=
  (∀ (v : Word) (i : Instr), decode v = .ok i ↔
    ∃ op : Nibble, instrOf op (v.extractLsb' 8 4).toNat = some i ∧
      (if 1 ≤ op.toNat ∧ op.toNat ≤ 9 then v &&& 0xFFFFF0FF = op.setWidth 32 else v = op.setWidth 32)) ∧
  (∀ v : Word, (∃ e, decode v = .error e) ↔ ∀ r ∈ opcodeTable, r.selects v = false) ∧
  (∀ r ∈ opcodeTable, r.value = r.opcode.setWidth 32 ∧
    r.mask = if 1 ≤ r.opcode.toNat ∧ r.opcode.toNat ≤ 9 then 0xFFFFF0FF else 0xFFFFFFFF)

/-- R97, R237: a word is illegal exactly on the four listed conditions; an illegal word completes with ILLEGAL_CMD, sets
ERR.ILLEGAL, records bits [3:0] and [11:8], and changes nothing else; any other word is a command and is executed. -/
def Obligations.IllegalWordsCompleteWithIllegalCmd : Prop :=
  ∀ (v : Word) (s : State),
    let illegal := (v.extractLsb' 0 4 = 0xE ∨ v.extractLsb' 0 4 = 0xF) ∨ v.extractLsb' 4 4 ≠ 0 ∨ v.extractLsb' 12 20 ≠ 0 ∨
      (v.extractLsb' 0 4 ∈ ([0x0, 0xA, 0xB, 0xC, 0xD] : List Nibble) ∧ v.extractLsb' 8 4 ≠ 0)
    (illegal → execute v s = .next { s with
        code := .illegalCmd, lastOp := v.extractLsb' 0 4, lastInst := v.extractLsb' 8 4, pend := none,
        err := { s.err with illegal := true } }) ∧
    (¬ illegal → ∃ i, decode v = .ok i ∧ execute v s = exec i s)

/-- R99: the rule's example words decode to the commands it names, its illegal words are illegal, and 0x00000408 is legal but
BAD_INST when NUM_INST is 4. -/
def Obligations.SpecExampleWordsDecode : Prop :=
  decode 0x00000000 = .ok .nop ∧ decode 0x00000001 = .ok (.initMa 0) ∧ decode 0x00000102 = .ok (.initFir 1) ∧
  decode 0x00000203 = .ok (.initBq 2) ∧ decode 0x00000004 = .ok (.initIirDf 0) ∧ decode 0x00000008 = .ok (.process 0) ∧
  decode 0x00000308 = .ok (.process 3) ∧ decode 0x00000109 = .ok (.release 1) ∧ decode 0x0000000A = .ok .fxTofix ∧
  decode 0x0000000B = .ok .fxFromfix ∧ decode 0x0000000C = .ok .fxMul ∧ decode 0x0000000D = .ok .fxNarrow ∧
  decode 0x0000000E = .error .reservedOpcode ∧ decode 0x00000010 = .error .rsv0 ∧
  decode 0x0000010A = .error .instNotZero ∧ decode 0x00001008 = .error .rsv1 ∧
  decode 0x00000408 = .ok (.process 4) ∧
  ∀ s : State, s.params.numInst = 4 → exec (.process 4) s =
    .next { s with code := .badInst, lastOp := 0x8, lastInst := 4, pend := none }

/-! ## Agents and steps (40_command_engine.md, 70_reset_and_hazards.md) -/

/-- R114, R118: when it is the engine's turn and the pending word decodes to a command, the step is exec of that command at
the state with the turn taken off the schedule. -/
def Obligations.EngineTurnRunsTheDecodedCommand : Prop :=
  ∀ (s : State) (v : Word) (i : Instr), s.turn = .engine → s.pend = some v → decode v = .ok i →
    step s = exec i { s with sched := s.sched.tail }

/-- R113, R112: at the host's turn, out of reset, a 32-bit write of v to CMD with no command pending makes v the pending
command, does nothing else, and STATUS.BUSY then reads 1; with a command pending it only sets ERR.BUSY_WR. -/
def Obligations.CmdWriteStartsTheCommand : Prop :=
  ∀ (s : State) (v : Word) (rest : List HostOp),
    s.turn = .host → s.host = .write 0x010 .word v :: rest → s.rstN = true →
    let s' : State := { s with sched := s.sched.tail, host := rest }
    (s.pend = none → step s = .next { s' with pend := some v } ∧
      (State.busRead { s' with pend := some v } 0x020 .word).getLsbD 0 = true) ∧
    (s.pend ≠ none → step s = .next { s' with err := { s.err with busyWr := true } })

/-- R274, R114: whatever the schedule and whatever the host does, a command pending out of reset is no longer pending after at
most as many steps as the schedule is long, and one more: it has completed, or a reset has discarded it. Where the host has no
reset to perform, it has completed: after at most as many steps as the schedule is long, with nothing changed but ERR, the
host's list, the schedule and what the host has read, the step comes that executes the very word that was pending, and that
step leaves no command pending. -/
def Obligations.PendingCommandIsServed : Prop :=
  ∀ (s : State) (v : Word), s.rstN = true → s.pend = some v →
    (∃ n ≤ s.sched.length + 1, ∃ t : State, Host.Core.run Sys2Proof.core n s = .next t ∧ t.pend = none) ∧
    ((∀ op ∈ s.host, ∀ level, op ≠ .rstN level) → ∃ n ≤ s.sched.length, ∃ u t : State,
      Host.Core.run Sys2Proof.core n s = .next u ∧
      u = { s with err := u.err, host := u.host, sched := u.sched, reads := u.reads } ∧
      step u = execute v { u with sched := u.sched.tail } ∧ step u = .next t ∧ t.pend = none)

/-- R275, R274: a host program without a reset, started out of reset, ends under every schedule: its last operation has been
performed and no command is pending, within a bound. -/
def Obligations.HostProgramEnds : Prop :=
  ∀ s : State, s.rstN = true → (∀ op ∈ s.host, ∀ level, op ≠ .rstN level) →
    ∃ n ≤ s.sched.length + 2 * s.host.length + 1, ∃ t : State,
      Host.Core.run Sys2Proof.core n s = .next t ∧ t.ended = true

/-- R76, R115: while a command is pending, no operation of the host but a reset changes what the command will read, the
command itself, or any earlier result: only ERR, the host's list and what the host has read can differ. -/
def Obligations.HostCannotDisturbPendingCommand : Prop :=
  ∀ (s t : State) (op : HostOp), s.pend ≠ none → (∀ level, op ≠ .rstN level) → hostOp op s = .next t →
    t = { s with err := t.err, host := t.host, reads := t.reads }

/-- R23, R34, R36: no operation of the host but a reset changes a slot, RESULT, the fields of STATUS a completion writes, the
parameters or the reset level: those change only at command completion. -/
def Obligations.HostOperationsLeaveResultsAlone : Prop :=
  ∀ (s t : State) (op : HostOp), (∀ level, op ≠ .rstN level) → hostOp op s = .next t →
    t.slots = s.slots ∧ t.result = s.result ∧ t.code = s.code ∧ t.lastOp = s.lastOp ∧ t.lastInst = s.lastInst ∧
      t.params = s.params ∧ t.rstN = s.rstN ∧ t.epoch = s.epoch ∧ t.sched = s.sched

/-- R251, R3: with no command pending and nothing for the host to do, a step holds all state but the turn taken. -/
def Obligations.IdleMachineHoldsItsState : Prop :=
  ∀ s : State, s.pend = none → s.host = [] → step s = .next { s with sched := s.sched.tail }

/-- R242, R261: no step is refused, and the only step that stops is a bus transaction of the host while rst_n is 0. -/
def Obligations.OnlyTransactionsInResetStop : Prop :=
  ∀ s : State, (∀ r, step s ≠ .refused r) ∧
    ∀ f, step s = .fault f ↔ (f = .transactionInReset ∧ s.turn = .host ∧ s.rstN = false ∧
      ∃ op rest, s.host = op :: rest ∧ ∀ level, op ≠ .rstN level)

/-! ## The host port (10_state.md, 20_memory.md) -/

/-- R71: a read at the host's turn, out of reset, changes nothing but the record of what was read, and reading the same again
returns the same. -/
def Obligations.ReadsChangeNothing : Prop :=
  ∀ (s : State) (a : Addr) (size : Size) (rest : List HostOp),
    s.turn = .host → s.host = .read a size :: rest → s.rstN = true →
    ∃ t : State, step s = .next t ∧
      t = { s with sched := s.sched.tail, host := rest, reads := s.reads ++ [s.busRead a size] } ∧
      ∀ (a' : Addr) (size' : Size), t.busRead a' size' = s.busRead a' size'

/-- R65, R70, R64, R43: an access that is not 32 bits wide, not aligned, or at an address R64 assigns to nothing reads 0, and as
a write is dropped with ERR.BUS; no such access does anything else. -/
def Obligations.IneffectiveAccessesReadZeroAndDrop : Prop :=
  ∀ (s : State) (a : Addr) (size : Size) (v : Word),
    (size ≠ .word ∨ a.extractLsb' 0 2 ≠ 0 ∨ ¬ mappedAddr s.params a.toNat) →
    s.busRead a size = 0 ∧ s.busWrite a size v = { s with err := { s.err with bus := true } } ∧
    (s.rstN = true → hostOp (.read a size) s = .next { s with reads := s.reads ++ [0] } ∧
      hostOp (.write a size v) s = .next { s with err := { s.err with bus := true } })

/-- R72: the bus drops and the busy drops, in that order: a write that is unmapped, to a read-only register, not 32 bits wide
or misaligned only sets ERR.BUS, pending command or not; any other write but one to ERR is dropped with ERR.BUSY_WR while a
command is pending. -/
def Obligations.DroppedWritesOnlySetTheirFlag : Prop :=
  ∀ (s : State) (a : Addr) (size : Size) (v : Word),
    let busDrop := size ≠ .word ∨ a.extractLsb' 0 2 ≠ 0 ∨ ¬ mappedAddr s.params a.toNat ∨ readOnlyAddr s.params a.toNat
    (busDrop → s.busWrite a size v = { s with err := { s.err with bus := true } }) ∧
    (¬ busDrop → s.pend ≠ none → a ≠ 0x024 → s.busWrite a size v = { s with err := { s.err with busyWr := true } })

/-- R26, R35: a write to ERR clears exactly the flags whose bits are 1, with a command pending or not. -/
def Obligations.ErrWriteClearsTheOnes : Prop :=
  ∀ (s : State) (v : Word), s.busWrite 0x024 .word v =
    { s with err := ⟨s.err.illegal && !v[0], s.err.busyWr && !v[1], s.err.bus && !v[2]⟩ } ∧
    s.busRead 0x024 .word = (if s.err.illegal then 1 else 0) + (if s.err.busyWr then 2 else 0) + (if s.err.bus then 4 else 0)

/-- R35, R253: a set ERR flag stays set over every step but a reset or a host write of 1 to it. -/
def Obligations.ErrFlagsAreSticky : Prop :=
  ∀ s t : State, step s = .next t →
    (s.turn = .host ∧ ∃ level rest, s.host = .rstN level :: rest) ∨
    ∃ v : Word, (v ≠ 0 → s.turn = .host ∧ ∃ rest, s.host = .write 0x024 .word v :: rest) ∧
      (s.err.illegal = true → v[0] = false → t.err.illegal = true) ∧
      (s.err.busyWr = true → v[1] = false → t.err.busyWr = true) ∧
      (s.err.bus = true → v[2] = false → t.err.bus = true)

/-- R31, R32: with no command pending, OPA and OPB take the whole word written, read it back, and nothing else changes. -/
def Obligations.OperandRegistersReadBack : Prop :=
  ∀ (s : State) (v : Word), s.pend = none →
    s.busWrite 0x014 .word v = { s with opa := v } ∧ s.busWrite 0x018 .word v = { s with opb := v } ∧
    (s.busWrite 0x014 .word v).busRead 0x014 .word = v ∧ (s.busWrite 0x018 .word v).busRead 0x018 .word = v

/-- R37, R38: with no command pending, INSTs_CFG of an existing slot takes COUNT and SETTLE2 and INSTs_COEF takes BASE; the
reserved bits read 0; no bound slot and no other configuration register changes. -/
def Obligations.ConfigurationRegistersReadBack : Prop :=
  ∀ (s : State) (k : Nat) (v : Word), s.pend = none → k < s.params.numInst → s.instRegs.length = s.params.numInst →
    let cfgAddr : Addr := BitVec.ofNat 15 (0x100 + 0x20 * k)
    let coefAddr : Addr := BitVec.ofNat 15 (0x104 + 0x20 * k)
    (let t := s.busWrite cfgAddr .word v
     t.busRead cfgAddr .word = v &&& 0x1FFFF ∧ t.busRead coefAddr .word = s.busRead coefAddr .word ∧
       t = { s with instRegs := t.instRegs } ∧ ∀ j ≠ k, t.instReg j = s.instReg j) ∧
    (let t := s.busWrite coefAddr .word v
     t.busRead coefAddr .word = v &&& 0xFFFF ∧ t.busRead cfgAddr .word = s.busRead cfgAddr .word ∧
       t = { s with instRegs := t.instRegs } ∧ ∀ j ≠ k, t.instReg j = s.instReg j)

/-- R67, R69: with no command pending, a write to coefficient word j through the window stores sext_A of its low A bits; the
window reads the word sign-extended to 32 bits; every byte outside its four lanes, every other coefficient and every other
field is as before. -/
def Obligations.CoefWindowReadsWhatWasWritten : Prop :=
  ∀ (s : State) (j : Nat) (v : Word), s.coefRam.wf s.params = true → s.pend = none → j < s.params.coefDepth →
    let a : Addr := BitVec.ofNat 15 (0x4000 + 4 * j)
    let t := s.busWrite a .word v
    t.coef j = sext s.params.accBits v ∧ t.busRead a .word = word32 (sext s.params.accBits v) ∧
    (∀ b, ¬ (0x4000 + 4 * j ≤ b ∧ b < 0x4000 + 4 * j + 4) → t.byteAt b = s.byteAt b) ∧
    (∀ i ≠ j, t.coef i = s.coef i) ∧ t = { s with coefRam := t.coefRam } ∧
    ∀ i < s.params.coefDepth, s.busRead (BitVec.ofNat 15 (0x4000 + 4 * i)) .word = word32 (s.coef i)

/-- R68: a byte of coefficient RAM changes only in a step in which the host writes, by an aligned 32-bit write, the window
word that holds it, or drives reset; no command changes one. -/
def Obligations.OnlyTheHostWritesCoefficients : Prop :=
  (∀ (i : Instr) (s t : State), exec i s = .next t → ∀ a, t.byteAt a = s.byteAt a) ∧
  ∀ (s t : State), s.coefRam.wf s.params = true → step s = .next t → ∀ a, t.byteAt a ≠ s.byteAt a →
    s.turn = .host ∧ ∃ op rest, s.host = op :: rest ∧
      ((∃ level, op = .rstN level) ∨
       ∃ (b : Addr) (v : Word), op = .write b .word v ∧ s.pend = none ∧
         (∃ j < s.params.coefDepth, b.toNat = 0x4000 + 4 * j) ∧ b.toNat ≤ a ∧ a < b.toNat + 4)

/-- R27, R28, R29: ID, PARAM and PARAM2 read the identification and the parameters in every state, CEF-CORE's values being
those the rules give, and no step changes the parameters. -/
def Obligations.IdentificationRegistersAreConstant : Prop :=
  (∀ s : State, s.busRead 0x000 .word = 0x43454631 ∧
    (s.busRead 0x004 .word).toNat = s.params.sampleBits + 256 * s.params.accBits + 65536 * s.params.numInst ∧
    (s.busRead 0x008 .word).toNat = s.params.histCap + 65536 * s.params.coefDepth ∧
    (s.params = Config.cef → s.busRead 0x004 .word = 0x00042010 ∧ s.busRead 0x008 .word = 0x04000040)) ∧
  ∀ s t : State, step s = .next t → t.params = s.params

/-- R34, R33, R30: what a host read of STATUS, RESULT and CMD returns, in every state: STATUS has BUSY in bit 0, CODE in [7:4],
LAST_OP in [11:8], LAST_INST in [15:12] and 0 elsewhere; RESULT reads the whole word of the last result; CMD reads 0. -/
def Obligations.StatusRegisterFields : Prop :=
  ∀ s : State, let w := s.busRead 0x020 .word
    s.busRead 0x01C .word = s.result ∧ s.busRead 0x010 .word = 0 ∧
    w.getLsbD 0 = s.pend.isSome ∧ w.extractLsb' 1 3 = 0 ∧ w.extractLsb' 4 4 = s.code.number ∧
    w.extractLsb' 8 4 = s.lastOp ∧ w.extractLsb' 12 4 = s.lastInst ∧ w.extractLsb' 16 16 = 0

/-- R39 to R42 with R36: INSTs_STATE, IDX, SUM and BOUND of every existing slot read its kind, settled(s), counter, write index,
count, sum, base and threshold, reserved bits 0. -/
def Obligations.ViewRegistersShowTheSlot : Prop :=
  ∀ (s : State) (k : Nat), k < s.params.numInst →
    let sl := s.slot k
    let st := s.busRead (BitVec.ofNat 15 (0x108 + 0x20 * k)) .word
    let idx := s.busRead (BitVec.ofNat 15 (0x10C + 0x20 * k)) .word
    let sum := s.busRead (BitVec.ofNat 15 (0x110 + 0x20 * k)) .word
    let bound := s.busRead (BitVec.ofNat 15 (0x114 + 0x20 * k)) .word
    (st.extractLsb' 0 3).toNat = (match sl.kind with | .unbound => 0 | .ma => 1 | .fir => 2 | .bq => 3) ∧
    (st.getLsbD 3 = true ↔ match sl.kind with
      | .unbound => False | .ma => sl.cnt = sl.n | .fir => True | .bq => sl.cnt = sl.thr) ∧
    st.extractLsb' 4 12 = 0 ∧ st.extractLsb' 16 16 = sl.cnt ∧
    idx.extractLsb' 0 16 = sl.widx ∧ idx.extractLsb' 16 16 = sl.n ∧
    sum = word32 sl.sum ∧ bound.extractLsb' 0 16 = sl.cbase ∧ bound.extractLsb' 16 16 = sl.thr

/-! ## Reset (70_reset_and_hazards.md) -/

/-- R262: the values right after reset, as the host reads them and as the slots hold them. -/
def Obligations.ResetValuesAreTheSpecs : Prop :=
  let s := State.reset
  s.busRead 0x000 .word = 0x43454631 ∧ s.busRead 0x004 .word = 0x00042010 ∧ s.busRead 0x008 .word = 0x04000040 ∧
  s.opa = 0 ∧ s.opb = 0 ∧ s.result = 0 ∧ s.busRead 0x014 .word = 0 ∧ s.busRead 0x018 .word = 0 ∧
  s.busRead 0x01C .word = 0 ∧ s.busRead 0x010 .word = 0 ∧ s.busRead 0x020 .word = 0 ∧ s.busRead 0x024 .word = 0 ∧ s.pend = none ∧
  ∀ k < 4, s.busRead (BitVec.ofNat 15 (0x100 + 0x20 * k)) .word = 0 ∧
    s.busRead (BitVec.ofNat 15 (0x104 + 0x20 * k)) .word = 0 ∧
    s.busRead (BitVec.ofNat 15 (0x108 + 0x20 * k)) .word = 0 ∧
    s.busRead (BitVec.ofNat 15 (0x10C + 0x20 * k)) .word = 0 ∧
    s.busRead (BitVec.ofNat 15 (0x110 + 0x20 * k)) .word = 0 ∧
    s.busRead (BitVec.ofNat 15 (0x114 + 0x20 * k)) .word = 0 ∧
    (s.slot k).kind = .unbound ∧ (s.slot k).n = 0 ∧ (s.slot k).cbase = 0 ∧ (s.slot k).thr = 0 ∧ (s.slot k).cnt = 0 ∧
    (s.slot k).widx = 0 ∧ (s.slot k).sum = 0

/-- R261: driving rst_n to 0 discards a pending command with none of its effects; while it is 0 a transaction has no step; when
it returns to 1 every piece of the block's state holds its reset value, whatever it held. (THE MODEL'S CHOICE, log 8: that the
block holds every reset value already while rst_n is 0, as the first clause says, where R261 gives those values for the rise
only; and that the host's list, the schedule and the record of reads stay.) -/
def Obligations.ResetInputForcesResetValues : Prop :=
  ∀ (s : State) (rest : List HostOp), s.turn = .host →
    (s.host = .rstN false :: rest → ∃ t : State, step s = .next t ∧ t.rstN = false ∧ t.pend = none ∧
      t = { State.resetOf s.params t.epoch with rstN := false, host := rest, sched := s.sched.tail, reads := s.reads }) ∧
    (s.host = .rstN true :: rest → s.rstN = false → ∃ t : State, step s = .next t ∧
      t = { State.resetOf s.params t.epoch with host := rest, sched := s.sched.tail, reads := s.reads }) ∧
    (∀ op, s.host = op :: rest → (∀ level, op ≠ .rstN level) → s.rstN = false → step s = .fault .transactionInReset)

/-! ## Commands: no unit (40_command_engine.md) -/

/-- R117: NOP completes with OK and changes nothing else; a word with opcode 0 and any other bit set is illegal. -/
def Obligations.NopOnlyCompletes : Prop :=
  (∀ s : State, exec .nop s = .next { s with code := .ok, lastOp := 0x0, lastInst := 0, pend := none }) ∧
  rejectsOtherBits 0x0

/-- R131: each direct-form stub of an existing slot completes with NOT_IMPLEMENTED and changes nothing else; ILLEGAL_CMD and
BAD_INST come first. -/
def Obligations.DirectFormStubsReportNotImplemented : Prop :=
  ∀ io ∈ [(Instr.initIirDf, (0x4 : Nibble)), (Instr.initIirLp, 0x5), (Instr.initIirBp, 0x6), (Instr.initIirBs, 0x7)],
    (∀ (s : State) (k : Nat), k < s.params.numInst → exec (io.1 k) s =
      .next { s with code := .notImplemented, lastOp := io.2, lastInst := BitVec.ofNat 4 k, pend := none }) ∧
    checkedFirst io.2 io.1

/-- R238, R95: every instance command whose slot number is at or above NUM_INST completes with BAD_INST; nothing but STATUS
changes. -/
def Obligations.SlotNumbersOutOfRangeGiveBadInst : Prop :=
  ∀ (s : State) (i : Instr) (k : Nat), i.slot? = some k → s.params.numInst ≤ k →
    exec i s = .next { s with code := .badInst, lastOp := i.opcode, lastInst := BitVec.ofNat 4 k, pend := none }

/-- R123: RELEASE of an existing slot completes with OK and leaves it UNBOUND with every field 0, its history words as they
were, whatever it was; nothing else changes; ILLEGAL_CMD and BAD_INST come first. -/
def Obligations.ReleaseUnbindsTheSlot : Prop :=
  (∀ (s : State) (k : Nat), k < s.params.numInst →
    exec (.release k) s = .next { s with
      slots := s.slots.set k { kind := .unbound, n := 0, cbase := 0, thr := 0, cnt := 0, widx := 0, sum := 0,
                               hist := (s.slot k).hist },
      code := .ok, lastOp := 0x9, lastInst := BitVec.ofNat 4 k, pend := none }) ∧
  checkedFirst 0x9 .release

/-- R239: PROCESS of an UNBOUND slot completes with NOT_BOUND; nothing but STATUS changes. -/
def Obligations.ProcessOfUnboundSlotIsNotBound : Prop :=
  ∀ (s : State) (k : Nat), k < s.params.numInst → (s.slot k).kind = .unbound →
    exec (.process k) s = .next { s with code := .notBound, lastOp := 0x8, lastInst := BitVec.ofNat 4 k, pend := none }

/-- R128: a command word that completes with an error code other than INVALID_PARAM changes nothing except STATUS and, for
ILLEGAL_CMD, ERR.ILLEGAL; INVALID_PARAM can change a slot. -/
def Obligations.ErrorCompletionsChangeOnlyStatus : Prop :=
  (∀ (v : Word) (s t : State), execute v s = .next t →
    t.code ∈ [Code.illegalCmd, .badInst, .notImplemented, .notBound] →
    t = { s with code := t.code, lastOp := v.extractLsb' 0 4, lastInst := v.extractLsb' 8 4, pend := none,
                 err := { s.err with illegal := s.err.illegal || t.code == .illegalCmd } }) ∧
  ∃ s t : State, execute 0x00000001 s = .next t ∧ t.code = .invalidParam ∧ t.slot 0 ≠ s.slot 0

/-- R116, R126, R154, R250: what every command word leaves alone: all registers, configuration, coefficient bytes and slots but
the slot it names, RESULT unless it is PROCESS or FX_*, every slot if it is not an INIT_MA, INIT_FIR, INIT_BQ, PROCESS or
RELEASE; and that LAST_OP and LAST_INST record its bits and nothing is pending after. -/
def Obligations.EveryCommandKeepsItsFrame : Prop :=
  ∀ (v : Word) (s t : State), execute v s = .next t →
    t.lastOp = v.extractLsb' 0 4 ∧ t.lastInst = v.extractLsb' 8 4 ∧ t.pend = none ∧
    t.params = s.params ∧ t.rstN = s.rstN ∧ t.opa = s.opa ∧ t.opb = s.opb ∧ t.instRegs = s.instRegs ∧
    t.epoch = s.epoch ∧ t.host = s.host ∧ t.sched = s.sched ∧ t.reads = s.reads ∧
    t.err.busyWr = s.err.busyWr ∧ t.err.bus = s.err.bus ∧
    (∀ a, t.byteAt a = s.byteAt a) ∧
    (v.extractLsb' 0 4 ∉ ([0x8, 0xA, 0xB, 0xC, 0xD] : List Nibble) → t.result = s.result) ∧
    (v.extractLsb' 0 4 ∉ ([0x1, 0x2, 0x3, 0x8, 0x9] : List Nibble) → t.slots = s.slots) ∧
    (∀ j, j ≠ (v.extractLsb' 8 4).toNat → t.slot j = s.slot j)

/-- R240: the reported code is the first that applies: ILLEGAL_CMD, then BAD_INST, then the opcode's own check, then the
step's result; and a host write, dropped or not, does not touch STATUS.CODE. -/
def Obligations.StatusCodePriority : Prop :=
  (∀ (v : Word) (s : State), ∃ t : State, execute v s = .next t ∧
    let op := v.extractLsb' 0 4
    let k := (v.extractLsb' 8 4).toNat
    match decode v with
    | .error _ => t.code = .illegalCmd
    | .ok _ =>
      if 1 ≤ op.toNat ∧ op.toNat ≤ 9 ∧ s.params.numInst ≤ k then t.code = .badInst
      else if 4 ≤ op.toNat ∧ op.toNat ≤ 7 then t.code = .notImplemented
      else if op = 0x8 then
        if (s.slot k).kind = .unbound then t.code = .notBound else t.code = .ok ∨ t.code = .invalidOutput
      else if 1 ≤ op.toNat ∧ op.toNat ≤ 3 then t.code = .ok ∨ t.code = .invalidParam
      else t.code = .ok) ∧
  (∀ (s : State) (a : Addr) (size : Size) (v : Word), (s.busWrite a size v).code = s.code) ∧
  (∃ e, decode 0x00000F0E = .error e)

/-- R127, R125: PROCESS never switches a slot's kind or its binding; a command word that changes a slot's kind is an INIT_MA,
INIT_FIR, INIT_BQ or RELEASE naming that slot. -/
def Obligations.OnlyConstructionAndReleaseRebind : Prop :=
  ∀ (v : Word) (s t : State) (k : Nat), execute v s = .next t →
    ((t.slot k).kind ≠ (s.slot k).kind ∨ (t.slot k).n ≠ (s.slot k).n ∨ (t.slot k).cbase ≠ (s.slot k).cbase ∨
      (t.slot k).thr ≠ (s.slot k).thr) →
    v.extractLsb' 0 4 ∈ ([0x1, 0x2, 0x3, 0x9] : List Nibble) ∧ (v.extractLsb' 8 4).toNat = k

/-- R124, R170, R202: PROCESS of a slot is a function of its bound fields and history, the input Sample and, for FIR and BQ, the
coefficient words of its region, a BQ section's a0 excepted: two states that agree there give the same output, code and new
slot. -/
def Obligations.ProcessReadsOnlyItsOwnSlotAndRegion : Prop :=
  ∀ (s t s' t' : State) (k : Nat),
    s.Inv → t.Inv → k < s.params.numInst → s.params = t.params → s.slot k = t.slot k → (s.slot k).kind ≠ .unbound →
    s.opa.extractLsb' 0 s.params.sampleBits = t.opa.extractLsb' 0 s.params.sampleBits →
    ((s.slot k).kind = .fir → ∀ i < (s.slot k).n.toNat,
      s.coef ((s.slot k).cbase.toNat + i) = t.coef ((s.slot k).cbase.toNat + i)) →
    ((s.slot k).kind = .bq → ∀ i < 6 * (s.slot k).n.toNat, i % 6 ≠ 3 →
      s.coef ((s.slot k).cbase.toNat + i) = t.coef ((s.slot k).cbase.toNat + i)) →
    exec (.process k) s = .next s' → exec (.process k) t = .next t' →
    s'.result = t'.result ∧ s'.code = t'.code ∧ s'.slot k = t'.slot k

/-! ## fixed_point_scaler (41_fixed_point_scaler.md) -/

/-- R146: FX_TOFIX gives wrap_A(a * 2^F) of a = sext_A(OPA[A-1:0]), completes OK and changes nothing else; any other bit set
makes the word illegal. -/
def Obligations.FxTofixResult : Prop :=
  (∀ s : State, let p := s.params
    let a : Int := Int.bmod (s.opa.toNat : Int) (2 ^ p.accBits)
    exec .fxTofix s = .next { s with
      result := BitVec.ofInt 32 (Int.bmod (a * 2 ^ (p.sampleBits - 1)) (2 ^ p.accBits)),
      code := .ok, lastOp := 0xA, lastInst := 0, pend := none }) ∧
  rejectsOtherBits 0xA

/-- R147: FX_FROMFIX gives floor(a / 2^F) of a = sext_A(OPA[A-1:0]), not narrowed to W bits, completes OK and changes nothing else;
any other bit set makes the word illegal. -/
def Obligations.FxFromfixResult : Prop :=
  (∀ s : State, let p := s.params
    let a : Int := Int.bmod (s.opa.toNat : Int) (2 ^ p.accBits)
    ∃ r : Int, r * 2 ^ (p.sampleBits - 1) ≤ a ∧ a < (r + 1) * 2 ^ (p.sampleBits - 1) ∧
      exec .fxFromfix s = .next { s with
        result := BitVec.ofInt 32 r, code := .ok, lastOp := 0xB, lastInst := 0, pend := none }) ∧
  rejectsOtherBits 0xB

/-- R148: FX_MUL gives floor(wrap_A(a * b) / 2^F) of a and b, the low A bits of OPA and OPB as two's complement: the product
wraps to A bits before the shift. It completes OK and changes nothing else; any other bit set makes the word illegal. -/
def Obligations.FxMulResult : Prop :=
  (∀ s : State, let p := s.params
    let a : Int := Int.bmod (s.opa.toNat : Int) (2 ^ p.accBits)
    let b : Int := Int.bmod (s.opb.toNat : Int) (2 ^ p.accBits)
    ∃ r : Int, r * 2 ^ (p.sampleBits - 1) ≤ Int.bmod (a * b) (2 ^ p.accBits) ∧
      Int.bmod (a * b) (2 ^ p.accBits) < (r + 1) * 2 ^ (p.sampleBits - 1) ∧
      exec .fxMul s = .next { s with
        result := BitVec.ofInt 32 r, code := .ok, lastOp := 0xC, lastInst := 0, pend := none }) ∧
  rejectsOtherBits 0xC

/-- R149: FX_NARROW gives the low W bits of OPA as two's complement, completes OK and changes nothing else; any other bit set
makes the word illegal. -/
def Obligations.FxNarrowResult : Prop :=
  (∀ s : State, let p := s.params
    ∃ r : Int, -(2 ^ (p.sampleBits - 1)) ≤ r ∧ r < 2 ^ (p.sampleBits - 1) ∧
      r % 2 ^ p.sampleBits = (s.opa.toNat : Int) % 2 ^ p.sampleBits ∧
      exec .fxNarrow s = .next { s with
        result := BitVec.ofInt 32 r, code := .ok, lastOp := 0xD, lastInst := 0, pend := none }) ∧
  rejectsOtherBits 0xD

/-- R153: the product mulq(X, to_fixed(1)) = X for every X in [-2^(A-1-F), 2^(A-1-F) - 1]; with CEF-CORE's widths 65536 wraps to
-65536. -/
def Obligations.MultiplyingByOneIsExact : Prop :=
  (∀ (p : Params) (x : Int), -(2 ^ (p.accBits - 1 - p.fracBits)) ≤ x → x ≤ 2 ^ (p.accBits - 1 - p.fracBits) - 1 →
    mulq p x (toFixed p 1) = x) ∧
  mulq Config.cef 65536 (toFixed Config.cef 1) = -65536

/-- R156: the Sample narrow(2^(W-1)) is -2^(W-1); multiplying by to_fixed(-1) negates, but for the least value, which it keeps. -/
def Obligations.NegationWrapsAtTheBottom : Prop :=
  ∀ p : Params, narrow p (2 ^ (p.sampleBits - 1)) = -(2 ^ (p.sampleBits - 1)) ∧
    (∀ v : Int, -(2 ^ (p.accBits - 1 - p.fracBits)) < v → v ≤ 2 ^ (p.accBits - 1 - p.fracBits) - 1 →
      mulq p (toFixed p (-1)) v = -v) ∧
    mulq p (toFixed p (-1)) (-(2 ^ (p.accBits - 1 - p.fracBits))) = -(2 ^ (p.accBits - 1 - p.fracBits))

/-! ## moving_average_engine (42_moving_average.md) -/

/-- R161, R120, R235: INIT_MA of an existing slot constructs an MA slot of window COUNT if COUNT is in 1..HIST_CAP and else
leaves the slot UNBOUND with INVALID_PARAM; nothing else changes; ILLEGAL_CMD and BAD_INST come first. -/
def Obligations.InitMaConstructsOrRejects : Prop :=
  (∀ (s : State) (k : Nat), k < s.params.numInst →
    let count := (s.instReg k).count
    (count ≠ 0 → count.toNat ≤ s.params.histCap → exec (.initMa k) s = .next { s with
      slots := s.slots.set k { kind := .ma, n := count, cbase := 0, thr := 0, cnt := 0, widx := 0, sum := 0,
                               hist := List.replicate s.params.histCap 0 },
      code := .ok, lastOp := 0x1, lastInst := BitVec.ofNat 4 k, pend := none }) ∧
    (count = 0 ∨ s.params.histCap < count.toNat → exec (.initMa k) s = .next { s with
      slots := s.slots.set k { kind := .unbound, n := 0, cbase := 0, thr := 0, cnt := 0, widx := 0, sum := 0,
                               hist := (s.slot k).hist },
      code := .invalidParam, lastOp := 0x1, lastInst := BitVec.ofNat 4 k, pend := none })) ∧
  checkedFirst 0x1 .initMa

/-- R162: PROCESS of an MA slot, in the rule's five steps: sum, fill count, history word, write index, output and validity;
nothing else changes. -/
def Obligations.ProcessOfMaSlotAveragesItsWindow : Prop :=
  ∀ (s : State) (k : Nat), k < s.params.numInst → (s.slot k).kind = .ma →
    let p := s.params
    let sl := s.slot k
    let x := sext p.sampleBits s.opa
    let sum := if sl.cnt = sl.n then wrap p.accBits (wrap p.accBits (sl.sum + x) - sl.hist.getD sl.widx.toNat 0)
      else wrap p.accBits (sl.sum + x)
    let cnt := if sl.cnt = sl.n then sl.cnt else sl.cnt + 1
    exec (.process k) s = .next { s with
      slots := s.slots.set k { sl with
        cnt := cnt, sum := sum, hist := sl.hist.set sl.widx.toNat x,
        widx := BitVec.ofNat 16 ((sl.widx.toNat + 1) % sl.n.toNat) },
      result := word32 (wrap p.sampleBits (Int.tdiv sum cnt.toNat)),
      code := if cnt = sl.n then .ok else .invalidOutput,
      lastOp := 0x8, lastInst := BitVec.ofNat 4 k, pend := none }

/-- R166, R167: where HIST_CAP full-scale Samples fit an Accumulator (as in CEF-CORE), the running sum of an MA slot after a
PROCESS is exactly the sum of its window, the output is exactly that sum divided by the fill count toward zero, and it is a
Sample: nothing wraps. -/
def Obligations.MaNeverWrapsWhenTheWindowFits : Prop :=
  ∀ (s t : State) (k : Nat), s.Inv → k < s.params.numInst → (s.slot k).kind = .ma →
    (s.params.histCap : Int) * 2 ^ (s.params.sampleBits - 1) < 2 ^ (s.params.accBits - 1) →
    exec (.process k) s = .next t →
    let sl := t.slot k
    sl.sum = (sl.hist.take sl.cnt.toNat).sum ∧ 1 ≤ sl.cnt.toNat ∧
    fits s.params.sampleBits (Int.tdiv sl.sum sl.cnt.toNat) ∧ t.result = word32 (Int.tdiv sl.sum sl.cnt.toNat)

/-- R164: after a successful INIT_MA of window S, the first S - 1 PROCESS commands complete with INVALID_OUTPUT and the S-th and
every later one with OK, whatever the samples: with OK exactly when the fill count after the step is S. -/
def Obligations.MaIsValidFromTheLastWindowFill : Prop :=
  ∀ (s s₁ : State) (k : Nat) (xs : List Word), s.Inv → k < s.params.numInst → exec (.initMa k) s = .next s₁ →
    s₁.code = .ok → xs ≠ [] →
    ((s₁.feed k xs).code = if xs.length < (s.instReg k).count.toNat then .invalidOutput else .ok) ∧
    ((s₁.feed k xs).code = .ok ↔ ((s₁.feed k xs).slot k).cnt = ((s₁.feed k xs).slot k).n)

/-- R169: where HIST_CAP full-scale Samples fit an Accumulator (R167), after a successful INIT_MA of window S, feeding the same
Sample v over and over, every output is v, flagged OK from the S-th on. -/
def Obligations.MaOfConstantInputIsTheConstant : Prop :=
  ∀ (s s₁ : State) (k n : Nat) (x : Word), s.Inv → k < s.params.numInst →
    (s.params.histCap : Int) * 2 ^ (s.params.sampleBits - 1) < 2 ^ (s.params.accBits - 1) →
    exec (.initMa k) s = .next s₁ → s₁.code = .ok →
    let t := s₁.feed k (List.replicate (n + 1) x)
    t.result = word32 (sampleOf s.params x) ∧
      t.code = if n + 1 < (s.instReg k).count.toNat then .invalidOutput else .ok

/-! ## fir_filter (43_fir_filter.md) -/

/-- R181, R120, R235: INIT_FIR of an existing slot constructs a FIR slot of COUNT taps from BASE if COUNT is in 1..HIST_CAP and
the taps lie in coefficient RAM, and else leaves the slot UNBOUND with INVALID_PARAM; nothing else changes; ILLEGAL_CMD and BAD_INST
come first. -/
def Obligations.InitFirConstructsOrRejects : Prop :=
  (∀ (s : State) (k : Nat), k < s.params.numInst →
    let count := (s.instReg k).count
    let base := (s.instReg k).base
    let legal := count ≠ 0 ∧ count.toNat ≤ s.params.histCap ∧ base.toNat + count.toNat ≤ s.params.coefDepth
    (legal → exec (.initFir k) s = .next { s with
      slots := s.slots.set k { kind := .fir, n := count, cbase := base, thr := 0, cnt := 0, widx := 0, sum := 0,
                               hist := List.replicate s.params.histCap 0 },
      code := .ok, lastOp := 0x2, lastInst := BitVec.ofNat 4 k, pend := none }) ∧
    (¬ legal → exec (.initFir k) s = .next { s with
      slots := s.slots.set k { kind := .unbound, n := 0, cbase := 0, thr := 0, cnt := 0, widx := 0, sum := 0,
                               hist := (s.slot k).hist },
      code := .invalidParam, lastOp := 0x2, lastInst := BitVec.ofNat 4 k, pend := none })) ∧
  checkedFirst 0x2 .initFir

/-- R182, R183, R184: PROCESS of a FIR slot with N taps completes with OK; its output is the narrowed sum of the N separately
rescaled products, tap 0 on the input and tap i on delay word i - 1; the delay line moves on by one; the fill counter rises
to at most N - 1; nothing else changes. -/
def Obligations.ProcessOfFirSlotConvolves : Prop :=
  ∀ (s : State) (k : Nat), s.Inv → k < s.params.numInst → (s.slot k).kind = .fir →
    let p := s.params
    let sl := s.slot k
    let x := sext p.sampleBits s.opa
    let n := sl.n.toNat
    let y := wrap p.sampleBits (∑ i ∈ Finset.range n,
      mulq p (s.coef (sl.cbase.toNat + i)) (if i = 0 then x else sl.hist.getD (i - 1) 0))
    ∃ hist : List Int, hist.length = sl.hist.length ∧
      (∀ j, hist.getD j 0 = if n ≤ j + 1 then sl.hist.getD j 0 else if j = 0 then x else sl.hist.getD (j - 1) 0) ∧
      exec (.process k) s = .next { s with
        slots := s.slots.set k { sl with hist := hist, cnt := BitVec.ofNat 16 (min (sl.cnt.toNat + 1) (n - 1)) },
        result := word32 y, code := .ok, lastOp := 0x8, lastInst := BitVec.ofNat 4 k, pend := none }

/-- R187: with one tap, 2^F, the FIR output is the input Sample, whatever it is, with OK. -/
def Obligations.FirUnityTapIsTheIdentity : Prop :=
  ∀ (s : State) (k : Nat), k < s.params.numInst → (s.slot k).kind = .fir → (s.slot k).n = 1 →
    s.coef (s.slot k).cbase.toNat = 2 ^ s.params.fracBits →
    ∃ t : State, exec (.process k) s = .next t ∧ t.result = word32 (sext s.params.sampleBits s.opa) ∧ t.code = .ok

/-- R182 over a whole run with R183 and R186: after a successful INIT_FIR, feeding any samples with the coefficients left
alone, the output is the convolution of the taps with the samples fed, 0 before the first. -/
def Obligations.FirComputesTheConvolutionOfItsInputs : Prop :=
  ∀ (s s₁ : State) (k : Nat) (xs : List Word), s.Inv → k < s.params.numInst → exec (.initFir k) s = .next s₁ →
    s₁.code = .ok → xs ≠ [] →
    let p := s.params
    let base := (s.instReg k).base.toNat
    (s₁.feed k xs).code = .ok ∧
    (s₁.feed k xs).result = word32 (wrap p.sampleBits
      (∑ i ∈ Finset.range (s.instReg k).count.toNat, mulq p (s.coef (base + i)) (sampleBack p xs i)))

/-! ## iir_biquad_cascade (44_iir_biquad_cascade.md) -/

/-- R201, R203, R120, R235: INIT_BQ of an existing slot constructs a BQ slot of COUNT sections from BASE with threshold COUNT, or
twice it if SETTLE2 is 1, if two history words and six coefficients per section fit, and else leaves the slot UNBOUND with
INVALID_PARAM; nothing else changes; ILLEGAL_CMD and BAD_INST come first. -/
def Obligations.InitBqConstructsOrRejects : Prop :=
  (∀ (s : State) (k : Nat), k < s.params.numInst →
    let count := (s.instReg k).count
    let base := (s.instReg k).base
    let legal := count ≠ 0 ∧ 2 * count.toNat ≤ s.params.histCap ∧ base.toNat + 6 * count.toNat ≤ s.params.coefDepth
    (legal → exec (.initBq k) s = .next { s with
      slots := s.slots.set k { kind := .bq, n := count, cbase := base,
                               thr := if (s.instReg k).settle2 then count + count else count,
                               cnt := 0, widx := 0, sum := 0, hist := List.replicate s.params.histCap 0 },
      code := .ok, lastOp := 0x3, lastInst := BitVec.ofNat 4 k, pend := none }) ∧
    (¬ legal → exec (.initBq k) s = .next { s with
      slots := s.slots.set k { kind := .unbound, n := 0, cbase := 0, thr := 0, cnt := 0, widx := 0, sum := 0,
                               hist := (s.slot k).hist },
      code := .invalidParam, lastOp := 0x3, lastInst := BitVec.ofNat 4 k, pend := none })) ∧
  checkedFirst 0x3 .initBq

/-- R205, R206, R204, R207, R208, R209: PROCESS of a BQ slot: each section's output is its six-coefficient recurrence on its
input and its two delay words, wrapped to A bits and not narrowed; its delay pair takes the output and the old first word; the
last output, narrowed, is RESULT; the code is OK exactly if the counter was at the threshold before; the counter rises to at
most the threshold; nothing else changes. -/
def Obligations.ProcessOfBqSlotRunsTheCascade : Prop :=
  ∀ (s : State) (k : Nat), s.Inv → k < s.params.numInst → (s.slot k).kind = .bq →
    let p := s.params
    let sl := s.slot k
    let c := fun m i => s.coef (sl.cbase.toNat + (6 * m + i))
    ∃ (u : Nat → Int) (hist : List Int), u 0 = sext p.sampleBits s.opa ∧ hist.length = sl.hist.length ∧
      (∀ m < sl.n.toNat,
        u (m + 1) = wrap p.accBits (mulq p (c m 0) (u m) + mulq p (c m 1) (sl.hist.getD (2 * m) 0) +
          mulq p (c m 2) (sl.hist.getD (2 * m + 1) 0) - mulq p (c m 4) (sl.hist.getD (2 * m) 0) -
          mulq p (c m 5) (sl.hist.getD (2 * m + 1) 0)) ∧
        hist.getD (2 * m) 0 = u (m + 1) ∧ hist.getD (2 * m + 1) 0 = sl.hist.getD (2 * m) 0) ∧
      (∀ j, 2 * sl.n.toNat ≤ j → hist.getD j 0 = sl.hist.getD j 0) ∧
      exec (.process k) s = .next { s with
        slots := s.slots.set k { sl with hist := hist, cnt := BitVec.ofNat 16 (min (sl.cnt.toNat + 1) sl.thr.toNat) },
        result := word32 (wrap p.sampleBits (u sl.n.toNat)),
        code := if sl.cnt = sl.thr then .ok else .invalidOutput,
        lastOp := 0x8, lastInst := BitVec.ofNat 4 k, pend := none }

/-- R212: one section with b0 = 2^F and the other coefficients it reads 0 returns every input Sample unchanged, and the code is
OK exactly from the second sample on when the threshold is 1. -/
def Obligations.BqIdentitySectionIsTheIdentity : Prop :=
  ∀ (s : State) (k : Nat), s.Inv → k < s.params.numInst → (s.slot k).kind = .bq → (s.slot k).n = 1 →
    s.coef (s.slot k).cbase.toNat = 2 ^ s.params.fracBits →
    (∀ i ∈ [1, 2, 4, 5], s.coef ((s.slot k).cbase.toNat + i) = 0) →
    ∃ t : State, exec (.process k) s = .next t ∧ t.result = word32 (sext s.params.sampleBits s.opa) ∧
      ((s.slot k).thr = 1 → t.code = if (s.slot k).cnt = 0 then .invalidOutput else .ok)

/-- R209, R210, R208: after a successful INIT_BQ with threshold T, whatever the samples and coefficients: each PROCESS of the
slot raises the counter by one, from 0 up to T, whatever the number of sections; and the PROCESS after n of them completes with
OK exactly if the counter is at T, that is, if n is T or more, and with INVALID_OUTPUT otherwise. -/
def Obligations.BqWarmUpCountsItsThreshold : Prop :=
  ∀ (s s₁ : State) (k : Nat) (xs : List Word) (x : Word), s.Inv → k < s.params.numInst → exec (.initBq k) s = .next s₁ →
    s₁.code = .ok →
    let m := (s.instReg k).count.toNat
    let threshold := if (s.instReg k).settle2 then 2 * m else m
    let t := s₁.feed k xs
    (t.slot k).cnt.toNat = min xs.length threshold ∧
    (t.feed1 k x).code = (if (t.slot k).cnt = (t.slot k).thr then .ok else .invalidOutput) ∧
    (t.feed1 k x).code = (if xs.length < threshold then .invalidOutput else .ok)

/-- R211: once a BQ slot is SETTLED, every step leaves it SETTLED, but an INIT_MA, INIT_FIR, INIT_BQ or RELEASE of that slot or a
reset. -/
def Obligations.SettledIsTerminal : Prop :=
  ∀ (s t : State) (k : Nat), (s.slot k).kind = .bq → (s.slot k).settled = true → step s = .next t →
    ((t.slot k).kind = .bq ∧ (t.slot k).settled = true) ∨
    (s.turn = .host ∧ ∃ level rest, s.host = .rstN level :: rest) ∨
    (s.turn = .engine ∧ ∃ i, s.pend = some (encode i) ∧ i ∈ [Instr.initMa k, .initFir k, .initBq k, .release k])

/-! ## Configuration and invariants -/

/-- R8, P8: configure answers a configuration exactly if the one asked for is fixed-point with every parameter in its range; what
it answers has the very parameters asked for, none clamped; a floating-point request is refused as such. -/
def Obligations.ConfigurationIsCheckedBeforeRunning : Prop :=
  ∀ r : Config.Raw,
    ((∃ p : Params, Config.configure r = .ok p) ↔
      r.format = .fixedPoint ∧ 2 ≤ r.sampleBits ∧ r.sampleBits ≤ 16 ∧ 2 * r.sampleBits ≤ r.accBits ∧ r.accBits ≤ 32 ∧
        1 ≤ r.numInst ∧ r.numInst ≤ 16 ∧ 1 ≤ r.histCap ∧ r.histCap ≤ 4096 ∧ 1 ≤ r.coefDepth ∧ r.coefDepth ≤ 4096) ∧
    (∀ p : Params, Config.configure r = .ok p → p.sampleBits = r.sampleBits ∧ p.accBits = r.accBits ∧
      p.numInst = r.numInst ∧ p.histCap = r.histCap ∧ p.coefDepth = r.coefDepth) ∧
    (r.format = .floatingPoint → Config.configure r = .error .floatingPoint)

/-- The machine right after reset meets the invariant, whatever the free values are. -/
def Obligations.ResetMeetsTheInvariant : Prop := State.reset.Inv

/-- From every state that meets the invariant, a step gives one that meets it: slot bounds, the running-sum law R166, the
delay lines, the capacity conditions of construction, the canonical form of coefficient RAM. -/
def Obligations.EveryStepKeepsTheInvariant : Prop :=
  ∀ s t : State, s.Inv → step s = .next t → t.Inv
end

