-- ==== Sys2Proof/Laws/HostAsm.lean ====
section
/-! SUPPORT. The word of a `cmd` line against the encoder and the decoder (30_encoding.md R91, R97, R100). -/

namespace Sys2Proof.Machine

/-- A mnemonic and its `i<s>` give the encoding of the command they name, where they name one (R100). -/
theorem Mnemonic.word_eq_encode (m : Mnemonic) (s : Nibble) (h : (m.command 0).slot? = none → s = 0) :
    m.word s = encode (m.command s.toNat) := by
  cases m <;> simp [Mnemonic.word, Mnemonic.command, encode, Instr.opcode, Instr.instBits, Instr.slot?] at h ⊢ <;>
    rw [h]

/-- A no-instance mnemonic with a slot other than 0 gives an illegal word (R97, R99). -/
theorem Mnemonic.word_illegal (m : Mnemonic) (s : Nibble) (h : (m.command 0).slot? = none) (hs : s ≠ 0) :
    decode (m.word s) = .error .instNotZero := by
  revert s
  cases m <;> first | decide | simp [Mnemonic.command, Instr.slot?] at h

end Sys2Proof.Machine
end

