-- ==== Sys2Proof/Tests/Slice0.lean ====
section
/-! SUPPORT. The model's own tests. Expected values come from spec/: words from 30_encoding.md R91, R94, R97, R99, results
from the vectors of 95_test_vectors.md or by hand from the rule named. Then one witness per statement with hypotheses. -/

namespace Sys2Proof.Tests

open Sys2Proof Sys2Proof.Machine

/-! ## A small machine: CEF-CORE's widths and slots, four history words, sixteen coefficients -/

def small : Params where
  sampleBits := 16
  accBits := 32
  numInst := 4
  histCap := 4
  coefDepth := 16
  sampleBits_ok := by decide
  accBits_ok := by decide
  numInst_ok := by decide
  histCap_ok := by decide
  coefDepth_ok := by decide

/-- An UNBOUND slot with zero history. -/
def empty : Slot := { Slot.absent with hist := [0, 0, 0, 0] }

/-- The small machine after reset, with slot 0 as given and no unspecified history. -/
def machine (sl : Slot) : State := { State.resetOf small 0 with slots := [sl, empty, empty, empty] }

/-- The small machine with every slot UNBOUND. -/
def idle : State := machine empty

/-- Configuration of slot 0 written. -/
def configured (count base : Half) (settle2 : Bool) : State := idle.setInstReg 0 ⟨count, settle2, base⟩

/-- Coefficient words written from word 0 up. -/
def loaded (s : State) (cs : List Word) : State :=
  (List.range cs.length).foldl (fun t j => t.writeCoef j (cs.getD j 0)) s

/-- An MA slot of window 3 after 1000, 2000, 3000 (95_test_vectors.md L2.2). -/
def ma : Slot := { empty with kind := .ma, n := 3, cnt := 3, sum := 6000, hist := [1000, 2000, 3000, 0] }

/-- An MA slot of window 2 after -3 (L2.2). -/
def maFilling : Slot := { empty with kind := .ma, n := 2, cnt := 1, widx := 1, sum := -3, hist := [-3, 0, 0, 0] }

/-- A FIR slot of three taps after 100, 200 (L2.3). -/
def fir : Slot := { empty with kind := .fir, n := 3, cnt := 2, hist := [200, 100, 0, 0] }

/-- A FIR slot of one tap. -/
def fir1 : Slot := { empty with kind := .fir, n := 1 }

/-- A BQ slot of one section, threshold 1, warming. -/
def bq : Slot := { empty with kind := .bq, n := 1, thr := 1 }

/-- The same slot settled, after 1000 (L2.4). -/
def bqSettled : Slot := { bq with cnt := 1, hist := [1000, 0, 0, 0] }

/-- What a command leaves, if it answers a next state. -/
def after (i : Instr) (s : State) : Option State :=
  match exec i s with
  | .next t => some t
  | .fault _ => none
  | .refused _ => none

/-- RESULT and STATUS.CODE after a command. -/
def resultCode (i : Instr) (s : State) : Option (Word × Code) := (after i s).map fun t => (t.result, t.code)

/-- STATUS after a command. -/
def status (i : Instr) (s : State) : Option Word := (after i s).map State.statusWord

/-- Slot 0 after a command. -/
def slot0 (i : Instr) (s : State) : Option Slot := (after i s).map fun t => t.slot 0

/-! ## WellFormed: the one check, slot numbers below 16, refuses an ill-formed term of every instance command -/

theorem test_wellFormed_refuses_slot_16 :
    ([Instr.initMa 16, .initFir 16, .initBq 16, .initIirDf 16, .initIirLp 16, .initIirBp 16, .initIirBs 16, .process 16,
      .release 16].map Instr.wellFormed) = List.replicate 9 false := by decide

theorem test_wellFormed_admits_slot_15_and_no_slot :
    ([Instr.initMa 15, .initFir 15, .initBq 15, .initIirDf 15, .initIirLp 15, .initIirBp 15, .initIirBs 15, .process 15,
      .release 15, .nop, .fxTofix, .fxFromfix, .fxMul, .fxNarrow].map Instr.wellFormed) = List.replicate 14 true := by
  decide

/-! ## Decoding, bit by bit: RSV1 [31:12], INST [11:8], RSV0 [7:4], OP [3:0] (R91, R94, R99) -/

theorem test_decode_nop : decode 0b00000000000000000000_0000_0000_0000#32 = .ok .nop := by decide
theorem test_decode_initMa : decode 0b00000000000000000000_0000_0000_0001#32 = .ok (.initMa 0) := by decide
theorem test_decode_initFir : decode 0b00000000000000000000_0001_0000_0010#32 = .ok (.initFir 1) := by decide
theorem test_decode_initBq : decode 0b00000000000000000000_0010_0000_0011#32 = .ok (.initBq 2) := by decide
theorem test_decode_initIirDf : decode 0b00000000000000000000_0000_0000_0100#32 = .ok (.initIirDf 0) := by decide
theorem test_decode_initIirLp : decode 0b00000000000000000000_1000_0000_0101#32 = .ok (.initIirLp 8) := by decide
theorem test_decode_initIirBp : decode 0b00000000000000000000_0001_0000_0110#32 = .ok (.initIirBp 1) := by decide
theorem test_decode_initIirBs : decode 0b00000000000000000000_1111_0000_0111#32 = .ok (.initIirBs 15) := by decide
theorem test_decode_process : decode 0b00000000000000000000_0011_0000_1000#32 = .ok (.process 3) := by decide
theorem test_decode_release : decode 0b00000000000000000000_0001_0000_1001#32 = .ok (.release 1) := by decide
theorem test_decode_fxTofix : decode 0b00000000000000000000_0000_0000_1010#32 = .ok .fxTofix := by decide
theorem test_decode_fxFromfix : decode 0b00000000000000000000_0000_0000_1011#32 = .ok .fxFromfix := by decide
theorem test_decode_fxMul : decode 0b00000000000000000000_0000_0000_1100#32 = .ok .fxMul := by decide
theorem test_decode_fxNarrow : decode 0b00000000000000000000_0000_0000_1101#32 = .ok .fxNarrow := by decide

/-- R97: the reserved opcodes, RSV0, RSV1 at both ends, INST on a no-instance opcode (95_test_vectors.md L2.5). -/
theorem test_decode_illegal :
    [decode 0x0000000E, decode 0x0000000F, decode 0x00000010, decode 0x00001008, decode 0x80000008, decode 0x0000010A,
      decode 0x00000100] =
    [.error .reservedOpcode, .error .reservedOpcode, .error .rsv0, .error .rsv1, .error .rsv1, .error .instNotZero,
      .error .instNotZero] := by decide

/-- The encodings of R99, the other way. -/
theorem test_encode :
    [encode .nop, encode (.initFir 1), encode (.initBq 2), encode (.process 3), encode (.release 1), encode .fxNarrow] =
    [0x00000000, 0x00000102, 0x00000203, 0x00000308, 0x00000109, 0x0000000D] := by decide

/-- Each table row's match value, slot 0, selects its row and only it (R96). -/
theorem test_table_rows_disjoint : opcodeTable.Pairwise fun r q => q.selects r.value = false ∧ r.selects q.value = false := by
  decide

/-! ## Commands, one step each -/

theorem test_nop : status .nop { idle with code := .badInst, lastOp := 8, lastInst := 4 } = some 0x00000000 := by decide

/-- L2.2 construction: window 3 gives STATUS 0x00000100 and IDX0 0x00030000. -/
theorem test_initMa : (after (.initMa 0) (configured 3 0 true)).map (fun t => (t.statusWord, (t.slot 0).idxWord)) =
    some (0x00000100, 0x00030000) := by decide
/-- R161: a window above HIST_CAP (4 here) fails. -/
theorem test_initMa_too_big : (after (.initMa 0) (configured 5 0 false)).map (fun t => (t.statusWord, (t.slot 0).stateWord)) =
    some (0x00000120, 0x00000000) := by decide

/-- L2.3 construction: STATE 0x0000000A and BOUND the base; base + N may reach COEF_DEPTH (16 here). -/
theorem test_initFir : (after (.initFir 0) (configured 3 13 false)).map (fun t => (t.statusWord, (t.slot 0).stateWord,
    (t.slot 0).boundWord)) = some (0x00000200, 0x0000000A, 0x0000000D) := by decide
/-- One word further fails. -/
theorem test_initFir_past_end : status (.initFir 0) (configured 3 14 false) = some 0x00000220 := by decide

/-- L2.4 construction: two sections with SETTLE2 have threshold 4: BOUND 0x0004 and the base. -/
theorem test_initBq : (after (.initBq 0) (configured 2 4 true)).map (fun t => (t.statusWord, (t.slot 0).stateWord,
    (t.slot 0).boundWord)) = some (0x00000300, 0x00000003, 0x00040004) := by decide
/-- Two history words per section must fit (R201): three sections need six, HIST_CAP is 4. -/
theorem test_initBq_history : status (.initBq 0) (configured 3 0 false) = some 0x00000320 := by decide

/-- L2.5: STATUS of the four stubs. -/
theorem test_stubs : [status (.initIirDf 0) idle, status (.initIirLp 0) idle, status (.initIirBp 1) idle,
    status (.initIirBs 0) idle] = [some 0x00000430, some 0x00000530, some 0x00001630, some 0x00000730] := by decide

/-- L2.5: PROCESS of slot 4 with NUM_INST 4 is BAD_INST, of UNBOUND slot 3 NOT_BOUND. -/
theorem test_process_errors : [status (.process 4) idle, status (.process 3) idle] =
    [some 0x00004850, some 0x00003840] := by decide

/-- L2.2: after 1000, 2000, 3000, 4000, the sample -5000 gives 666 = tdiv(2000, 3) and H = 4000, -5000, 3000. -/
theorem test_process_ma : (after (.process 0)
      { machine { ma with widx := 1, sum := 9000, hist := [4000, 2000, 3000, 0] } with opa := 0xFFFFEC78 }).map
    (fun t => (t.result, t.code, (t.slot 0).hist, (t.slot 0).sum, (t.slot 0).widx)) =
    some (0x0000029A, .ok, [4000, -5000, 3000, 0], 2000, 2) := by decide
/-- L2.2: window 2, -3 then 0 gives tdiv(-3, 2) = -1, toward zero, with OK. -/
theorem test_process_ma_toward_zero : resultCode (.process 0) (machine maFilling) = some (0xFFFFFFFF, .ok) := by decide

/-- L2.3: taps 0x4000, 0x2000, 0x2000 after 100, 200: input 300 gives 225, the delay line is 300, 200. -/
theorem test_process_fir : (after (.process 0) { loaded (machine fir) [0x4000, 0x2000, 0x2000] with opa := 300 }).map
    (fun t => (t.result, t.code, (t.slot 0).hist)) = some (225, .ok, [300, 200, 0, 0]) := by decide
/-- L2.3: one tap 2.0 and 20000: the output is narrowed to -25536. -/
theorem test_process_fir_narrows : resultCode (.process 0) { loaded (machine fir1) [0x10000] with opa := 20000 } =
    some (0xFFFF9C40, .ok) := by decide

/-- L2.4, row (0x8000, 0, 0, 0x8000, 0xFFFFC000, 0): the second output is 500 with OK, the delay pair (500, 1000). -/
theorem test_process_bq : (after (.process 0) (loaded (machine bqSettled) [0x8000, 0, 0, 0x8000, 0xFFFFC000, 0])).map
    (fun t => (t.result, t.code, (t.slot 0).hist)) = some (500, .ok, [500, 1000, 0, 0]) := by decide
/-- L2.4, row (0x8000, 0, 0, 0, 0, 0x4000), third sample: d0 = 0, d1 = 100 give -50, the floor of a2 times d1. -/
theorem test_process_bq_a2 : resultCode (.process 0) (loaded (machine { bqSettled with hist := [0, 100, 0, 0] })
    [0x8000, 0, 0, 0, 0, 0x4000]) = some (0xFFFFFFCE, .ok) := by decide

/-- R123: RELEASE keeps only the history words. -/
theorem test_release : (after (.release 0) (machine ma)).map (fun t => (t.statusWord, t.slot 0)) =
    some (0x00000900, { empty with hist := [1000, 2000, 3000, 0] }) := by decide

/-- L2.1, FX_TOFIX: -1 and the wrap at 65536. -/
theorem test_fxTofix : [resultCode .fxTofix { idle with opa := 0xFFFFFFFF }, resultCode .fxTofix { idle with opa := 0x10000 }] =
    [some (0xFFFF8000, .ok), some (0x80000000, .ok)] := by decide
/-- L2.1, FX_FROMFIX: floor, and not narrowed. -/
theorem test_fxFromfix : [resultCode .fxFromfix { idle with opa := 0xFFFF7FFF },
    resultCode .fxFromfix { idle with opa := 0x7FFFFFFF }] = [some (0xFFFFFFFE, .ok), some (0x0000FFFF, .ok)] := by decide
/-- L2.1, FX_MUL: the product wraps before the shift, and -1.5 floors to -2. -/
theorem test_fxMul : [resultCode .fxMul { idle with opa := 0x00018000, opb := 0x00006000 },
    resultCode .fxMul { idle with opa := 0x00004000, opb := 0xFFFFFFFD }] =
    [some (0xFFFF2000, .ok), some (0xFFFFFFFE, .ok)] := by decide
/-- L2.1, FX_NARROW. -/
theorem test_fxNarrow : [resultCode .fxNarrow { idle with opa := 0x00012345 },
    resultCode .fxNarrow { idle with opa := 0x00008000 }] = [some (0x00002345, .ok), some (0xFFFF8000, .ok)] := by decide

/-! ## The host port (95_test_vectors.md, bus-level vectors) -/

theorem test_bus_drops : [(idle.busWrite 0x01C .word 1).err.word, (idle.busWrite 0x016 .word 5).err.word,
    (idle.busWrite 0x014 .half 5).err.word, (idle.busWrite 0x00C .word 1).err.word, (idle.busWrite 0x118 .word 1).err.word,
    (idle.busWrite 0x180 .word 1).err.word, (idle.busWrite 0x5000 .word 1).err.word] = List.replicate 7 0x4 := by decide

/-- While a NOP is pending: OPA dropped with BUSY_WR, RESULT still an RO drop, ERR writable, STATUS 1. -/
theorem test_bus_busy : let s : State := { idle with pend := some 0 }
    [(s.busWrite 0x014 .word 99).err.word, (s.busWrite 0x01C .word 1).err.word,
      ((s.busWrite 0x014 .word 99).busWrite 0x024 .word 7).err.word, s.busRead 0x020 .word] = [0x2, 0x4, 0x0, 0x1] := by
  decide

theorem test_bus_reads : [idle.busRead 0x016 .word, idle.busRead 0x010 .word, State.reset.busRead 0x000 .word,
    State.reset.busRead 0x004 .word, State.reset.busRead 0x008 .word,
    (idle.busWrite 0x4000 .word 0x00008000).busRead 0x4000 .word] =
    [0, 0, 0x43454631, 0x00042010, 0x04000040, 0x00008000] := by decide

/-- The word of a command, made pending, is what the next step runs. -/
theorem test_withFetchWord : (match step (State.reset.withFetchWord 32 0x0000000A) with
    | .next t => some (t.statusWord, t.result)
    | .fault _ => none
    | .refused _ => none) = some (0x00000A00, 0) := by decide

/-- R101 on program P3's line `init_bq i2, 32, 2, 1`: CFG2 = 0x00010002, COEF2 = 32, word 0x00000203, poll. -/
theorem test_initBqLines : assemble (initBqLines 2 32 2 1) =
    [.write 0x140 .word 0x00010002, .write 0x144 .word 32, .write 0x010 .word 0x00000203, .poll] := by decide

/-- R101 on the start of program P2: words 16 and 17 of the COEF window. -/
theorem test_ldcoef : assemble (ldcoef 16 [0x4000, 0x2000]) =
    [.write 0x4040 .word 0x4000, .write 0x4044 .word 0x2000] := by decide

/-- R101: `process i1, 100` and `clrerr`. -/
theorem test_processLines : assemble (processLines 1 100 ++ clrerrLines) =
    [.write 0x014 .word 100, .write 0x010 .word 0x00000108, .poll, .read 0x01C .word, .read 0x020 .word,
      .write 0x024 .word 0x7] := by decide

/-- R100 on program P4's lines `cmd FX_TOFIX i1`, `cmd PROCESS i5` and `cmd INIT_MA i0`, and on `cmd NOP` with i<s> omitted. -/
theorem test_cmdLines :
    assemble [.cmd .fxTofix (some 1), .cmd .process (some 5), .cmd .initMa (some 0), .cmd .nop none] =
      [.write 0x010 .word 0x0000010A, .write 0x010 .word 0x00000508, .write 0x010 .word 0x00000001,
       .write 0x010 .word 0x00000000] := by decide

/-- R61: the size codes. -/
theorem test_sizeSignal : [Size.ofSignal 0, Size.ofSignal 1, Size.ofSignal 2, Size.ofSignal 3] =
    [.byte, .half, .word, .other] := by decide

/-- R267 on program P4: `wr OPA, 7` while PROCESS is pending is a busy hazard, and not once the engine's turn comes first. -/
theorem test_busyHazard :
    let s : State := { idle with pend := some 0x00000008, host := [.write 0x014 .word 7], sched := [.host] }
    s.busyHazard = true ∧ { s with sched := [] }.busyHazard = false := by decide

/-! ## Witnesses: for each statement with hypotheses, a concrete state and operands that meet all of them together

The states meet the invariant; where a statement has several clauses, each has its witness, at the ends of its range. -/

theorem inv_of_slot {s : State} {sl : Slot} (hp : s.params = small) (hi : s.instRegs.length = 4)
    (hs : s.slots = [sl, empty, empty, empty]) (h : sl.Inv small) (hc : s.coefRam.wf small = true) (hr : s.rstN = true) :
    s.Inv where
  instRegsLength := by rw [hi, hp]; rfl
  slotsLength := by rw [hs, hp]; rfl
  slotsInv := by
    have he : empty.Inv small := ⟨rfl, by decide, by decide, show Slot.UnboundInv empty by decide⟩
    rw [hs, hp]
    simpa using ⟨h, he⟩
  coefRamWf := by rw [hp]; exact hc
  resetIdle := by rw [hr]; simp

theorem empty_inv : empty.Inv small := ⟨rfl, by decide, by decide, show Slot.UnboundInv empty by decide⟩
theorem ma_inv : ma.Inv small := ⟨rfl, by decide, by decide, show Slot.MaInv small ma by decide⟩
theorem maFilling_inv : maFilling.Inv small := ⟨rfl, by decide, by decide, show Slot.MaInv small maFilling by decide⟩
theorem fir_inv : fir.Inv small := ⟨rfl, by decide, by decide, show Slot.FirInv small fir by decide⟩
theorem fir1_inv : fir1.Inv small := ⟨rfl, by decide, by decide, show Slot.FirInv small fir1 by decide⟩
theorem bq_inv : bq.Inv small := ⟨rfl, by decide, by decide, show Slot.BqInv small bq by decide⟩
theorem bqSettled_inv : bqSettled.Inv small := ⟨rfl, by decide, by decide, show Slot.BqInv small bqSettled by decide⟩
theorem configured_inv (count base : Half) (b : Bool) : (configured count base b).Inv :=
  inv_of_slot rfl rfl rfl empty_inv rfl rfl

/-- The small machine with slot 0 and coefficient words 0 up. -/
abbrev running (sl : Slot) (cs : List Word) : State := loaded (machine sl) cs

/-- The host's next operation, with the host's turn. -/
abbrev hostNext (s : State) (op : HostOp) : State := { s with host := [op] }

/-! ### Encoding -/

theorem test_witness_DecodeOfEncodeIsTheCommand :
    (Instr.process 0).wellFormed = true ∧ (Instr.process 15).wellFormed = true ∧ Instr.nop.wellFormed = true := by decide

theorem test_witness_EncodeOfDecodeIsTheWord : decode 0x00000F08 = .ok (.process 15) := by decide

/-- A word of each of the four conditions of R97, and words of none. -/
theorem test_witness_IllegalWordsCompleteWithIllegalCmd :
    (BitVec.extractLsb' 0 4 (0x0000000E : Word) = 0xE ∧ BitVec.extractLsb' 0 4 (0x0000000F : Word) = 0xF ∧
      BitVec.extractLsb' 4 4 (0x00000010 : Word) ≠ 0 ∧ BitVec.extractLsb' 12 20 (0x80000008 : Word) ≠ 0 ∧
      BitVec.extractLsb' 0 4 (0x0000010D : Word) = 0xD ∧ BitVec.extractLsb' 8 4 (0x0000010D : Word) ≠ 0) ∧
    (BitVec.extractLsb' 0 4 (0x00000F09 : Word) = 0x9 ∧ BitVec.extractLsb' 4 4 (0x00000F09 : Word) = 0 ∧
      BitVec.extractLsb' 12 20 (0x00000F09 : Word) = 0) := by decide

theorem test_witness_SpecExampleWordsDecode : State.reset.params.numInst = 4 := by decide

/-- A word for each side of each equivalence: selected by an instance row, by a no-instance row, and by none. -/
theorem test_witness_DecoderSelectsByMaskAndMatch :
    (instrOf 0x8 15 = some (.process 15) ∧ (0x00000F08 : Word) &&& 0xFFFFF0FF = BitVec.setWidth 32 (0x8 : Nibble)) ∧
    instrOf 0xD 0 = some .fxNarrow ∧ (∀ r ∈ opcodeTable, r.selects 0x0000010D = false) := by decide

/-! ### Agents and steps -/

theorem test_witness_EngineTurnRunsTheDecodedCommand :
    let s := idle.withPending 0x00000008
    s.turn = .engine ∧ s.pend = some 0x00000008 ∧ decode 0x00000008 = .ok (.process 0) := by decide

/-- Both clauses: nothing pending, and a NOP pending with the host scheduled. -/
theorem test_witness_CmdWriteStartsTheCommand :
    (let s := hostNext idle (.write 0x010 .word 0x8)
     s.turn = .host ∧ s.host = [.write 0x010 .word 0x8] ∧ s.rstN = true ∧ s.pend = none) ∧
    (let s : State := { hostNext idle (.write 0x010 .word 0x8) with pend := some 0, sched := [.host] }
     s.turn = .host ∧ s.host = [.write 0x010 .word 0x8] ∧ s.rstN = true ∧ s.pend ≠ none) := by decide

/-- With a reset among the host's operations, and, for the second clause, with none. -/
theorem test_witness_PendingCommandIsServed :
    (let s : State := { idle with pend := some 0xE, sched := [.host, .host], host := [.rstN false] }
     s.rstN = true ∧ s.pend = some 0xE) ∧
    (let s : State := { idle with pend := some 0x8, sched := [.host, .host], host := [.poll, .write 0x014 .word 5] }
     s.rstN = true ∧ s.pend = some 0x8 ∧ ∀ op ∈ s.host, ∀ level, op ≠ .rstN level) := by decide

theorem test_witness_HostProgramEnds :
    let s := idle.withProgram (processLines 0 5) [.host, .engine]
    s.rstN = true ∧ ∀ op ∈ s.host, ∀ level, op ≠ .rstN level := by decide

theorem test_witness_HostCannotDisturbPendingCommand :
    let s : State := { idle with pend := some 0x8 }
    s.pend ≠ none ∧ (∀ level, HostOp.write 0x014 .word 5 ≠ .rstN level) ∧
      ∃ t, hostOp (.write 0x014 .word 5) s = .next t := ⟨by decide, by decide, _, rfl⟩

theorem test_witness_HostOperationsLeaveResultsAlone :
    (∀ level, HostOp.poll ≠ .rstN level) ∧ ∃ t, hostOp .poll idle = .next t := ⟨by decide, _, rfl⟩

theorem test_witness_IdleMachineHoldsItsState : idle.pend = none ∧ idle.host = [] := by decide

/-- The right side of the equivalence, for a read, a write and a poll in reset. -/
theorem test_witness_OnlyTransactionsInResetStop :
    ∀ op ∈ [HostOp.read 0x000 .word, .write 0x024 .word 7, .poll],
      let s : State := { hostNext idle op with rstN := false }
      s.turn = .host ∧ s.rstN = false ∧ s.host = [op] ∧ ∀ level, op ≠ .rstN level := by decide

/-! ### The host port -/

theorem test_witness_ReadsChangeNothing :
    let s := hostNext idle (.read 0x020 .word)
    s.turn = .host ∧ s.host = [.read 0x020 .word] ∧ s.rstN = true := by decide

/-- A narrow access, a misaligned one, and the first addresses past each mapped range. -/
theorem test_witness_IneffectiveAccessesReadZeroAndDrop :
    (Size.half ≠ .word ∧ BitVec.extractLsb' 0 2 (0x016 : Addr) ≠ 0) ∧
    (¬ mappedAddr small 0x028 ∧ ¬ mappedAddr small 0x118 ∧ ¬ mappedAddr small 0x180 ∧ ¬ mappedAddr small 0x4040) := by
  refine ⟨by decide, ?_⟩
  simp only [mappedAddr, small]
  refine ⟨?_, ?_, ?_, ?_⟩ <;> rintro (h | ⟨k, hk, o, ho, h⟩ | ⟨j, hj, h⟩) <;> (try simp at h ho) <;> (try simp at h) <;> omega

/-- Bus drops at the ends of the read-only range, and writable registers at the ends of theirs with a command pending. -/
theorem test_witness_DroppedWritesOnlySetTheirFlag :
    (readOnlyAddr small 0x000 ∧ readOnlyAddr small 0x174) ∧
    (mappedAddr small 0x010 ∧ mappedAddr small 0x164 ∧ mappedAddr small 0x403C) ∧
    (¬ readOnlyAddr small 0x010 ∧ ¬ readOnlyAddr small 0x164 ∧ ¬ readOnlyAddr small 0x403C) ∧
    (BitVec.extractLsb' 0 2 (0x403C : Addr) = 0 ∧ (0x403C : Addr) ≠ 0x024) ∧ ({ idle with pend := some 0 } : State).pend ≠ none := by
  refine ⟨⟨.inl (by decide), .inr ⟨3, by decide, 0x14, by decide, rfl⟩⟩,
    ⟨.inl (by decide), .inr (.inl ⟨3, by decide, 0x04, by decide, rfl⟩), .inr (.inr ⟨15, by decide, rfl⟩)⟩, ?_,
    by decide, by decide⟩
  simp only [readOnlyAddr, small]
  refine ⟨?_, ?_, ?_⟩ <;> rintro (h | ⟨k, hk, o, ho, h⟩) <;> simp at * <;> omega

/-- All three flags set, and the host about to clear one by a write of 1 to it. -/
theorem test_witness_ErrFlagsAreSticky :
    let s : State := { hostNext idle (.write 0x024 .word 0x1) with err := ⟨true, true, true⟩ }
    (∃ t, step s = .next t) ∧ s.err = ⟨true, true, true⟩ ∧ (0x1 : Word)[1] = false ∧ (0x1 : Word)[2] = false :=
  ⟨⟨_, rfl⟩, rfl, rfl, rfl⟩

theorem test_witness_OperandRegistersReadBack : idle.pend = none := by decide

/-- The first and the last slot. -/
theorem test_witness_ConfigurationRegistersReadBack :
    idle.pend = none ∧ 0 < idle.params.numInst ∧ 3 < idle.params.numInst ∧ idle.instRegs.length = idle.params.numInst := by
  decide

/-- The first and the last coefficient word. -/
theorem test_witness_CoefWindowReadsWhatWasWritten :
    idle.coefRam.wf idle.params = true ∧ idle.pend = none ∧ 0 < idle.params.coefDepth ∧ 15 < idle.params.coefDepth := by
  decide

/-- A host write that changes a byte of the last coefficient word. -/
theorem test_witness_OnlyTheHostWritesCoefficients :
    (∃ t, exec .nop idle = .next t) ∧
    let s := hostNext (idle.writeCoef 15 0) (.write 0x403C .word 0x000000FF)
    s.coefRam.wf s.params = true ∧ ∃ t, step s = .next t ∧ t.byteAt 0x403C ≠ s.byteAt 0x403C :=
  ⟨⟨_, rfl⟩, by decide, _, rfl, by decide⟩

theorem test_witness_IdentificationRegistersAreConstant :
    State.reset.params = Config.cef ∧ ∃ t, step State.reset = .next t := ⟨rfl, _, rfl⟩

theorem test_witness_ViewRegistersShowTheSlot : 0 < idle.params.numInst ∧ 3 < idle.params.numInst := by decide

/-! ### Reset -/

/-- The three clauses: into reset with a command pending, out of reset, and a transaction in reset. -/
theorem test_witness_ResetInputForcesResetValues :
    (let s : State := { hostNext idle (.rstN false) with pend := some 0x8, sched := [.host] }
     s.turn = .host ∧ s.host = [.rstN false]) ∧
    (let s : State := { hostNext idle (.rstN true) with rstN := false }
     s.turn = .host ∧ s.host = [.rstN true] ∧ s.rstN = false) ∧
    (let s : State := { hostNext idle .poll with rstN := false }
     s.turn = .host ∧ s.host = [.poll] ∧ (∀ level, HostOp.poll ≠ .rstN level) ∧ s.rstN = false) := by decide

/-! ### Commands of no unit -/

theorem test_witness_NopOnlyCompletes : BitVec.extractLsb' 0 4 (0x00000100 : Word) = 0x0 ∧ (0x00000100 : Word) ≠ 0 := by decide

/-- The clauses of checkedFirst and rejectsOtherBits: reserved bits at their ends, the first slot that does not exist. -/
theorem test_witness_checkedFirst :
    (BitVec.extractLsb' 0 4 (0x00000019 : Word) = 0x9 ∧ BitVec.extractLsb' 4 4 (0x00000019 : Word) ≠ 0) ∧
    (BitVec.extractLsb' 0 4 (0x80000001 : Word) = 0x1 ∧ BitVec.extractLsb' 12 20 (0x80000001 : Word) ≠ 0) ∧
    idle.params.numInst ≤ 4 := by decide

theorem test_witness_DirectFormStubsReportNotImplemented : 0 < idle.params.numInst ∧ 3 < idle.params.numInst := by decide

/-- The first slot number that does not exist, and the last that can be written. -/
theorem test_witness_SlotNumbersOutOfRangeGiveBadInst :
    (Instr.process 4).slot? = some 4 ∧ idle.params.numInst ≤ 4 ∧ (Instr.release 15).slot? = some 15 ∧
      idle.params.numInst ≤ 15 := by decide

theorem test_witness_ReleaseUnbindsTheSlot : 0 < (machine ma).params.numInst ∧ 3 < (machine ma).params.numInst := by decide

theorem test_witness_ProcessOfUnboundSlotIsNotBound : 3 < idle.params.numInst ∧ (idle.slot 3).kind = .unbound := by decide

/-- A word for each of the four codes. -/
theorem test_witness_ErrorCompletionsChangeOnlyStatus :
    ∀ vc ∈ [((0x0000000E : Word), Code.illegalCmd), (0x00000408, .badInst), (0x00000004, .notImplemented),
      (0x00000308, .notBound)],
      (match execute vc.1 idle with
       | .next t => some t.code
       | .fault _ => none
       | .refused _ => none) = some vc.2 := by decide

/-- NOP leaves RESULT and every slot; PROCESS of slot 0 leaves slot 1. -/
theorem test_witness_EveryCommandKeepsItsFrame :
    (∃ t, execute 0x00000000 idle = .next t) ∧ (0x0 : Nibble) ∉ ([0x8, 0xA, 0xB, 0xC, 0xD] : List Nibble) ∧
    (0x0 : Nibble) ∉ ([0x1, 0x2, 0x3, 0x8, 0x9] : List Nibble) ∧ (∃ t, execute 0x00000008 (machine ma) = .next t) ∧
    1 ≠ (BitVec.extractLsb' 8 4 (0x00000008 : Word)).toNat :=
  ⟨⟨_, rfl⟩, by decide, by decide, ⟨_, rfl⟩, by decide⟩

/-- A word for each case of the priority rule: BAD_INST, NOT_IMPLEMENTED, NOT_BOUND, a step's code, a construction's, OK. -/
theorem test_witness_StatusCodePriority :
    (decode 0x00000408 = .ok (.process 4) ∧ idle.params.numInst ≤ 4) ∧ decode 0x00000007 = .ok (.initIirBs 0) ∧
    (decode 0x00000008 = .ok (.process 0) ∧ (idle.slot 0).kind = .unbound ∧ ((machine ma).slot 0).kind ≠ .unbound) ∧
    decode 0x00000003 = .ok (.initBq 0) ∧ decode 0x00000009 = .ok (.release 0) := by decide

theorem test_witness_OnlyConstructionAndReleaseRebind :
    ∃ t, execute 0x00000009 (machine ma) = .next t ∧ (t.slot 0).kind ≠ ((machine ma).slot 0).kind := ⟨_, rfl, by decide⟩

/-- Two states that differ in OPB, RESULT and OPA's high half, for a FIR and a BQ slot; the BQ ones differ in a0 too. -/
theorem test_witness_ProcessReadsOnlyItsOwnSlotAndRegion :
    (let s := running fir [0x4000, 0x2000, 0x2000]
     let t : State := { s with opa := 0xABCD0000, opb := 7, result := 9 }
     s.Inv ∧ t.Inv ∧ 0 < s.params.numInst ∧ s.params = t.params ∧ s.slot 0 = t.slot 0 ∧ (s.slot 0).kind ≠ .unbound ∧
     s.opa.extractLsb' 0 s.params.sampleBits = t.opa.extractLsb' 0 s.params.sampleBits ∧
     (∀ i < (s.slot 0).n.toNat, s.coef ((s.slot 0).cbase.toNat + i) = t.coef ((s.slot 0).cbase.toNat + i)) ∧
     (∃ u, exec (.process 0) s = .next u) ∧ ∃ u, exec (.process 0) t = .next u) ∧
    (let s := running bq [0x8000, 0, 0, 0, 0, 0]
     let t := running bq [0x8000, 0, 0, 0x12345, 0, 0]
     s.Inv ∧ t.Inv ∧ 0 < s.params.numInst ∧ s.params = t.params ∧ s.slot 0 = t.slot 0 ∧ (s.slot 0).kind ≠ .unbound ∧
     s.opa.extractLsb' 0 s.params.sampleBits = t.opa.extractLsb' 0 s.params.sampleBits ∧
     (∀ i < 6 * (s.slot 0).n.toNat, i % 6 ≠ 3 →
       s.coef ((s.slot 0).cbase.toNat + i) = t.coef ((s.slot 0).cbase.toNat + i)) ∧
     (∃ u, exec (.process 0) s = .next u) ∧ ∃ u, exec (.process 0) t = .next u) :=
  ⟨⟨inv_of_slot rfl rfl rfl fir_inv (by decide) rfl, inv_of_slot rfl rfl rfl fir_inv (by decide) rfl, by decide, rfl, rfl,
      by decide, by decide, fun _ _ => (State.coef_congr rfl rfl rfl _).symm, exec_next _ _, exec_next _ _⟩,
    ⟨inv_of_slot rfl rfl rfl bq_inv (by decide) rfl, inv_of_slot rfl rfl rfl bq_inv (by decide) rfl, by decide, rfl, rfl,
      by decide, by decide, by decide, exec_next _ _, exec_next _ _⟩⟩

/-! ### fixed_point_scaler -/

/-- The second clause of each FX statement: its opcode with another bit set. -/
theorem test_witness_FxTofixResult : BitVec.extractLsb' 0 4 (0x0000010A : Word) = 0xA ∧ (0x0000010A : Word) ≠ 0x0000000A := by
  decide
theorem test_witness_FxFromfixResult : BitVec.extractLsb' 0 4 (0x0000001B : Word) = 0xB ∧ (0x0000001B : Word) ≠ 0x0000000B := by
  decide
theorem test_witness_FxMulResult : BitVec.extractLsb' 0 4 (0x8000000C : Word) = 0xC ∧ (0x8000000C : Word) ≠ 0x0000000C := by
  decide
theorem test_witness_FxNarrowResult : BitVec.extractLsb' 0 4 (0x00000F0D : Word) = 0xD ∧ (0x00000F0D : Word) ≠ 0x0000000D := by
  decide

/-- Both ends of the range. -/
theorem test_witness_MultiplyingByOneIsExact :
    ∀ x ∈ [(-65536 : Int), 65535], -(2 ^ (small.accBits - 1 - small.fracBits)) ≤ x ∧
      x ≤ 2 ^ (small.accBits - 1 - small.fracBits) - 1 := by decide

theorem test_witness_NegationWrapsAtTheBottom :
    ∀ v ∈ [(-65535 : Int), 65535], -(2 ^ (small.accBits - 1 - small.fracBits)) < v ∧
      v ≤ 2 ^ (small.accBits - 1 - small.fracBits) - 1 := by decide

/-! ### moving_average_engine -/

/-- Legal windows 1 and HIST_CAP, illegal ones 0 and HIST_CAP + 1. -/
theorem test_witness_InitMaConstructsOrRejects :
    (0 < idle.params.numInst ∧ (configured 1 0 false).instReg 0 = ⟨1, false, 0⟩) ∧
    ((1 : Half) ≠ 0 ∧ (1 : Half).toNat ≤ small.histCap) ∧ ((4 : Half) ≠ 0 ∧ (4 : Half).toNat ≤ small.histCap) ∧
    (0 : Half) = 0 ∧ small.histCap < (5 : Half).toNat := by decide

/-- A full window and a filling one. -/
theorem test_witness_ProcessOfMaSlotAveragesItsWindow :
    (0 < (machine ma).params.numInst ∧ ((machine ma).slot 0).kind = .ma ∧ ((machine ma).slot 0).cnt = ((machine ma).slot 0).n) ∧
    ((machine maFilling).slot 0).kind = .ma ∧ ((machine maFilling).slot 0).cnt ≠ ((machine maFilling).slot 0).n := by decide

theorem test_witness_MaNeverWrapsWhenTheWindowFits :
    let s := machine ma
    s.Inv ∧ 0 < s.params.numInst ∧ (s.slot 0).kind = .ma ∧
    (s.params.histCap : Int) * 2 ^ (s.params.sampleBits - 1) < 2 ^ (s.params.accBits - 1) ∧
    ∃ t, exec (.process 0) s = .next t :=
  ⟨inv_of_slot rfl rfl rfl ma_inv rfl rfl, by decide, rfl, by decide, _, rfl⟩

/-- Two samples into a window of three, and three. -/
theorem test_witness_MaIsValidFromTheLastWindowFill :
    let s := configured 3 0 false
    s.Inv ∧ 0 < s.params.numInst ∧ (∃ s₁, exec (.initMa 0) s = .next s₁ ∧ s₁.code = .ok) ∧
    ([1, 2] : List Word).length < (s.instReg 0).count.toNat ∧
    ¬ ([1, 2, 3] : List Word).length < (s.instReg 0).count.toNat :=
  ⟨configured_inv _ _ _, by decide, ⟨_, rfl, rfl⟩, by decide, by decide⟩

theorem test_witness_MaOfConstantInputIsTheConstant :
    let s := configured 3 0 false
    s.Inv ∧ 0 < s.params.numInst ∧
    (s.params.histCap : Int) * 2 ^ (s.params.sampleBits - 1) < 2 ^ (s.params.accBits - 1) ∧
    (∃ s₁, exec (.initMa 0) s = .next s₁ ∧ s₁.code = .ok) ∧ 1 + 1 < (s.instReg 0).count.toNat ∧
    ¬ 2 + 1 < (s.instReg 0).count.toNat :=
  ⟨configured_inv _ _ _, by decide, by decide, ⟨_, rfl, rfl⟩, by decide, by decide⟩

/-! ### fir_filter -/

/-- Legal with 4 taps at base 12, base + N = COEF_DEPTH; illegal by each of the three conditions. -/
theorem test_witness_InitFirConstructsOrRejects :
    (0 < idle.params.numInst ∧ (configured 4 12 false).instReg 0 = ⟨4, false, 12⟩) ∧
    ((4 : Half) ≠ 0 ∧ (4 : Half).toNat ≤ small.histCap ∧ (12 : Half).toNat + (4 : Half).toNat ≤ small.coefDepth) ∧
    ¬ (0 : Half) ≠ 0 ∧ ¬ (5 : Half).toNat ≤ small.histCap ∧ ¬ (13 : Half).toNat + (4 : Half).toNat ≤ small.coefDepth := by decide

theorem test_witness_ProcessOfFirSlotConvolves :
    (machine fir).Inv ∧ 0 < (machine fir).params.numInst ∧ ((machine fir).slot 0).kind = .fir :=
  ⟨inv_of_slot rfl rfl rfl fir_inv rfl rfl, by decide, rfl⟩

theorem test_witness_FirUnityTapIsTheIdentity :
    let s := running fir1 [0x8000]
    0 < s.params.numInst ∧ (s.slot 0).kind = .fir ∧ (s.slot 0).n = 1 ∧ s.coef (s.slot 0).cbase.toNat = 2 ^ s.params.fracBits := by
  decide

theorem test_witness_FirComputesTheConvolutionOfItsInputs :
    let s := configured 3 13 false
    s.Inv ∧ 0 < s.params.numInst ∧ (∃ s₁, exec (.initFir 0) s = .next s₁ ∧ s₁.code = .ok) ∧ ([1, 2] : List Word) ≠ [] :=
  ⟨configured_inv _ _ _, by decide, ⟨_, rfl, rfl⟩, by decide⟩

/-! ### iir_biquad_cascade -/

/-- Legal with 2 sections at base 4, history words and coefficients just enough; illegal by each of the three conditions. -/
theorem test_witness_InitBqConstructsOrRejects :
    (0 < idle.params.numInst ∧ (configured 2 4 true).instReg 0 = ⟨2, true, 4⟩) ∧
    ((2 : Half) ≠ 0 ∧ 2 * (2 : Half).toNat ≤ small.histCap ∧ (4 : Half).toNat + 6 * (2 : Half).toNat ≤ small.coefDepth) ∧
    ¬ (0 : Half) ≠ 0 ∧ ¬ 2 * (3 : Half).toNat ≤ small.histCap ∧ ¬ (5 : Half).toNat + 6 * (2 : Half).toNat ≤ small.coefDepth := by
  decide

/-- At the threshold and below it. -/
theorem test_witness_ProcessOfBqSlotRunsTheCascade :
    ((machine bq).Inv ∧ 0 < (machine bq).params.numInst ∧ ((machine bq).slot 0).kind = .bq ∧
      ((machine bq).slot 0).cnt ≠ ((machine bq).slot 0).thr) ∧
    (machine bqSettled).Inv ∧ ((machine bqSettled).slot 0).kind = .bq ∧
      ((machine bqSettled).slot 0).cnt = ((machine bqSettled).slot 0).thr :=
  ⟨⟨inv_of_slot rfl rfl rfl bq_inv rfl rfl, by decide, rfl, by decide⟩, inv_of_slot rfl rfl rfl bqSettled_inv rfl rfl, rfl, rfl⟩

theorem test_witness_BqIdentitySectionIsTheIdentity :
    let s := running bq [0x8000, 0, 0, 0x12345, 0, 0]
    s.Inv ∧ 0 < s.params.numInst ∧ (s.slot 0).kind = .bq ∧ (s.slot 0).n = 1 ∧
    s.coef (s.slot 0).cbase.toNat = 2 ^ s.params.fracBits ∧
    (∀ i ∈ [1, 2, 4, 5], s.coef ((s.slot 0).cbase.toNat + i) = 0) ∧ (s.slot 0).thr = 1 :=
  ⟨inv_of_slot rfl rfl rfl bq_inv (by decide) rfl, by decide, rfl, rfl, by decide, by decide, rfl⟩

/-- Threshold 2 without SETTLE2 and 4 with it; with 4, one sample below the threshold and at it. -/
theorem test_witness_BqWarmUpCountsItsThreshold :
    (let s := configured 2 4 true
     s.Inv ∧ 0 < s.params.numInst ∧ (∃ s₁, exec (.initBq 0) s = .next s₁ ∧ s₁.code = .ok) ∧
       ([1, 2, 3] : List Word).length < 2 * (s.instReg 0).count.toNat ∧
       ¬ ([1, 2, 3, 4] : List Word).length < 2 * (s.instReg 0).count.toNat) ∧
    (let s := configured 2 4 false
     s.Inv ∧ ∃ s₁, exec (.initBq 0) s = .next s₁ ∧ s₁.code = .ok) :=
  ⟨⟨configured_inv _ _ _, by decide, ⟨_, rfl, rfl⟩, by decide, by decide⟩, configured_inv _ _ _, _, rfl, rfl⟩

/-- A settled slot whose next step is a PROCESS of it. -/
theorem test_witness_SettledIsTerminal :
    let s := (running bqSettled [0x8000, 0, 0, 0, 0, 0]).withPending 0x00000008
    (s.slot 0).kind = .bq ∧ (s.slot 0).settled = true ∧ ∃ t, step s = .next t := ⟨rfl, by decide, _, rfl⟩

/-! ### Configuration and invariants -/

/-- CEF-CORE's own configuration, the ends of every range, and the floating-point one. -/
theorem test_witness_ConfigurationIsCheckedBeforeRunning :
    Config.configure ⟨.fixedPoint, 16, 32, 4, 64, 1024⟩ = .ok Config.cef ∧
    (Config.configure ⟨.fixedPoint, 2, 4, 1, 1, 1⟩).isOk = true ∧
    (Config.configure ⟨.fixedPoint, 16, 32, 16, 4096, 4096⟩).isOk = true ∧
    Config.configure ⟨.fixedPoint, 16, 31, 4, 64, 1024⟩ = .error .accBits ∧
    (⟨.floatingPoint, 16, 32, 4, 64, 1024⟩ : Config.Raw).format = .floatingPoint := by decide

/-- An engine step and a host step from states that meet the invariant. -/
theorem test_witness_EveryStepKeepsTheInvariant :
    (let s := (machine maFilling).withPending 0x00000008
     s.Inv ∧ ∃ t, step s = .next t) ∧
    (let s := hostNext (machine fir) (.write 0x4000 .word 0x8000)
     s.Inv ∧ ∃ t, step s = .next t) :=
  ⟨⟨inv_of_slot rfl rfl rfl maFilling_inv rfl rfl, _, rfl⟩, inv_of_slot rfl rfl rfl fir_inv rfl rfl, _, rfl⟩

end Sys2Proof.Tests
end

section
/-! PROOFS. What `Config.configure` answers (00_scope.md R8, R10 to R16). -/

namespace Sys2Proof.Config

/-- The configuration request that asks for exactly the parameters `p`. -/
def requestOf (p : Params) : Raw :=
  ⟨.fixedPoint, p.sampleBits, p.accBits, p.numInst, p.histCap, p.coefDepth⟩

/-- `Params` carries its ranges, so asking for what it holds passes every check. -/
@[simp] theorem configure_requestOf (p : Params) : configure (requestOf p) = .ok p := by
  rw [configure, requestOf, if_neg (by simp), dif_pos p.sampleBits_ok, dif_pos p.accBits_ok, dif_pos p.numInst_ok,
    dif_pos p.histCap_ok, dif_pos p.coefDepth_ok]

theorem configure_of_floatingPoint {r : Raw} (h : r.format = .floatingPoint) : configure r = .error .floatingPoint :=
  if_pos h

/-- Only one branch of the chain of checks answers, and it clamps nothing. -/
theorem eq_requestOf_of_configure {r : Raw} {p : Params} (h : configure r = .ok p) : r = requestOf p := by
  obtain ⟨_ | _, w, a, n, hist, coef⟩ := r
  case fixedPoint =>
    simp only [configure, reduceCtorEq, if_false] at h
    split_ifs at h
    cases h
    rfl
  case floatingPoint => simp [configure_of_floatingPoint] at h

/-- `configure` answers `p` exactly on the request for `p`. -/
theorem configure_eq_ok_iff {r : Raw} {p : Params} : configure r = .ok p ↔ r = requestOf p :=
  ⟨eq_requestOf_of_configure, fun h => h ▸ configure_requestOf p⟩

/-- The requests of this form are the fixed-point ones with every parameter in its range (R10 to R16). -/
theorem exists_eq_requestOf_iff {r : Raw} :
    (∃ p, r = requestOf p) ↔
      r.format = .fixedPoint ∧ 2 ≤ r.sampleBits ∧ r.sampleBits ≤ 16 ∧ 2 * r.sampleBits ≤ r.accBits ∧ r.accBits ≤ 32 ∧
        1 ≤ r.numInst ∧ r.numInst ≤ 16 ∧ 1 ≤ r.histCap ∧ r.histCap ≤ 4096 ∧ 1 ≤ r.coefDepth ∧ r.coefDepth ≤ 4096 := by
  constructor
  · rintro ⟨⟨_, _, _, _, _, ⟨hw, hw'⟩, ⟨ha, ha'⟩, ⟨hn, hn'⟩, ⟨hh, hh'⟩, hc⟩, rfl⟩
    exact ⟨rfl, hw, hw', ha, ha', hn, hn', hh, hh', hc⟩
  · obtain ⟨format, w, a, n, hist, coef⟩ := r
    rintro ⟨rfl, hw, hw', ha, ha', hn, hn', hh, hh', hc⟩
    exact ⟨⟨w, a, n, hist, coef, ⟨hw, hw'⟩, ⟨ha, ha'⟩, ⟨hn, hn'⟩, ⟨hh, hh'⟩, hc⟩, rfl⟩

/-- Settles O58: `configure` answers `p` on the request for `p` alone, and those requests are the legal ones. -/
theorem configurationIsCheckedBeforeRunning : Obligations.ConfigurationIsCheckedBeforeRunning := by
  intro r
  refine ⟨?_, ?_, configure_of_floatingPoint⟩
  · simp only [configure_eq_ok_iff, exists_eq_requestOf_iff]
  · intro p h
    obtain rfl := configure_eq_ok_iff.mp h
    exact ⟨rfl, rfl, rfl, rfl, rfl⟩

end Sys2Proof.Config
end

section
/-! PROOFS. What a step can do, said once, and what a command leaves of the registers (40_command_engine.md R111, R114,
R116). -/

namespace Sys2Proof.Machine

variable {s t : State}

/-- A step takes its turn off the schedule and does nothing else, executes the pending word, or performs the host's next
operation (R111, R114). -/
theorem step_next_cases (h : step s = .next t) :
    t = s.turnTaken ∨
    (∃ v, s.turn = .engine ∧ s.pend = some v ∧ execute v s.turnTaken = .next t) ∨
    ∃ op rest, s.turn = .host ∧ s.host = op :: rest ∧
      hostOp op { s with sched := s.sched.tail, host := rest } = .next t := by
  rcases step_cases s with ⟨hturn, e⟩ | ⟨hturn, e⟩ <;> rw [e] at h
  · cases hp : s.pend with
    | none =>
      rw [engineTurn_none (s := s.turnTaken) hp] at h
      cases h
      exact .inl rfl
    | some v =>
      rw [engineTurn_some (s := s.turnTaken) hp] at h
      exact .inr (.inl ⟨v, hturn, rfl, h⟩)
  · cases hops : s.host with
    | nil =>
      rw [hostTurn_nil (s := s.turnTaken) hops] at h
      cases h
      exact .inl rfl
    | cons op rest =>
      rw [hostTurn_cons (s := s.turnTaken) hops] at h
      exact .inr (.inr ⟨op, rest, hturn, rfl, h⟩)

/-- The registers no command writes, and ERR, which only the completion of an illegal word does (R116, R250). -/
theorem exec_frame {i : Instr} (h : exec i s = .next t) :
    t.params = s.params ∧ t.opa = s.opa ∧ t.opb = s.opb ∧ t.err = s.err ∧ t.instRegs = s.instRegs ∧
      t.coefRam = s.coefRam ∧ t.epoch = s.epoch := by
  obtain ⟨c, g | ⟨y, g, -⟩ | ⟨k, sl, -, -, g⟩ | ⟨k, sl, y, -, -, g⟩⟩ := exec_cases i s
  all_goals rw [g] at h; cases h; simp

theorem execute_params {v : Word} (h : execute v s = .next t) : t.params = s.params := by
  rcases execute_cases v s with ⟨-, -, g⟩ | ⟨i, -, g⟩ <;> rw [g] at h
  · cases h; rfl
  · exact (exec_frame h).1

/-- A command word can only set ERR.ILLEGAL (R35, R237). -/
theorem execute_err {v : Word} (h : execute v s = .next t) : t.err = s.err ∨ t.err = { s.err with illegal := true } := by
  rcases execute_cases v s with ⟨-, -, g⟩ | ⟨i, -, g⟩ <;> rw [g] at h
  · cases h; exact .inr rfl
  · obtain ⟨-, -, -, herr, -⟩ := exec_frame h
    exact .inl herr

theorem hostOp_params {op : HostOp} (h : hostOp op s = .next t) : t.params = s.params := by
  cases op with
  | rstN level =>
    cases h
    rcases State.driveReset_cases s level with ⟨-, -, e⟩ | ⟨-, e⟩
    · rw [e]
    · rw [e]; rfl
  | read a size | write a size v | poll =>
    obtain ⟨-, hp, -⟩ := hostOp_frame (fun level => by simp) h
    exact hp

/-- The parameters are fixed by the implementation (00_scope.md section 3). -/
theorem step_params (h : step s = .next t) : t.params = s.params := by
  rcases step_next_cases h with rfl | ⟨v, -, -, e⟩ | ⟨op, rest, -, -, e⟩
  · rfl
  · exact (execute_params e).trans rfl
  · exact (hostOp_params e).trans rfl

end Sys2Proof.Machine
end

section
/-! PROOFS. What construction, release, reset and each kind's step keep of a slot: the slot's part of the invariant
(10_state.md R36; 42_moving_average.md R163, R166; 43_fir_filter.md R183, R185; 44_iir_biquad_cascade.md R203, R209). -/

namespace Sys2Proof.Machine

variable {p : Params} {sl : Slot}

/-! ### The kind's part of the invariant, kind by kind -/

theorem Slot.kindInv_unbound (hk : sl.kind = .unbound) : sl.KindInv p ↔ sl.UnboundInv := by simp [Slot.KindInv, hk]
theorem Slot.kindInv_ma (hk : sl.kind = .ma) : sl.KindInv p ↔ sl.MaInv p := by simp [Slot.KindInv, hk]
theorem Slot.kindInv_fir (hk : sl.kind = .fir) : sl.KindInv p ↔ sl.FirInv p := by simp [Slot.KindInv, hk]
theorem Slot.kindInv_bq (hk : sl.kind = .bq) : sl.KindInv p ↔ sl.BqInv p := by simp [Slot.KindInv, hk]

@[simp] theorem fits_zero (n : Nat) : fits n 0 := by simp [fits]

theorem toNat_halfOfNat {m : Nat} (h : m < 2 ^ 16) : (BitVec.ofNat 16 m : Half).toNat = m :=
  (BitVec.toNat_ofNat m 16).trans (Nat.mod_eq_of_lt h)

/-- A counter that saturates at `m` stays at or below it (R185, R209). -/
theorem toNat_halfOfNat_min_le (c m : Nat) : (BitVec.ofNat 16 (min c m) : Half).toNat ≤ m := by
  rw [BitVec.toNat_ofNat]
  exact (Nat.mod_le _ _).trans (Nat.min_le_right c m)

/-! ### Slots with no history of their own: after reset, released, constructed -/

theorem Slot.afterReset_inv (p : Params) (epoch k : Nat) : (Slot.afterReset p epoch k).Inv p where
  histLength := by simp [Slot.afterReset]
  histFits := by
    intro w hw
    obtain ⟨j, -, rfl⟩ := List.mem_map.mp hw
    exact wrapA_fits p _
  sumFits := fits_zero _
  kindInv := (Slot.kindInv_unbound rfl).mpr ⟨rfl, rfl, rfl, rfl, rfl, rfl⟩

/-- A slot that is unbound keeps the history words, which still fit (R120, R123). -/
theorem Slot.unbind_inv (h : sl.Inv p) : sl.unbind.Inv p where
  histLength := h.histLength
  histFits := h.histFits
  sumFits := fits_zero _
  kindInv := (Slot.kindInv_unbound rfl).mpr ⟨rfl, rfl, rfl, rfl, rfl, rfl⟩

/-- Of a constructed slot, whose history and sum are 0, only the kind's part is left to show (R120). -/
theorem Slot.constructed_inv {kind : Kind} {count base thr : Nat}
    (h : (Slot.constructed p kind count base thr).KindInv p) : (Slot.constructed p kind count base thr).Inv p where
  histLength := List.length_replicate
  histFits := by
    intro w hw
    rw [List.eq_of_mem_replicate hw]
    exact fits_zero _
  sumFits := fits_zero _
  kindInv := h

theorem Slot.constructedMa_inv {count : Nat} (h : legalMa p count = true) : (Slot.constructed p .ma count 0 0).Inv p := by
  have hcap := p.histCap_ok
  simp only [legalMa, Bool.and_eq_true, bne_iff_ne, ne_eq, decide_eq_true_eq] at h
  have hn : (BitVec.ofNat 16 count : Half).toNat = count := toNat_halfOfNat (by omega)
  refine Slot.constructed_inv ((Slot.kindInv_ma rfl).mpr ?_)
  simp only [Slot.MaInv, Slot.constructed, hn]
  refine ⟨by omega, h.2, rfl, rfl, Nat.zero_le _, Nat.pos_of_ne_zero h.1, fun _ => trivial, ?_, by simp [wrapA]⟩
  intro w hw
  rw [List.eq_of_mem_replicate (List.mem_of_mem_take hw)]
  exact fits_zero _

theorem Slot.constructedFir_inv {count base : Nat} (h : legalFir p count base = true) :
    (Slot.constructed p .fir count base 0).Inv p := by
  have hcap := p.histCap_ok
  have hdepth := p.coefDepth_ok
  simp only [legalFir, Bool.and_eq_true, bne_iff_ne, ne_eq, decide_eq_true_eq] at h
  have hn : (BitVec.ofNat 16 count : Half).toNat = count := toNat_halfOfNat (by omega)
  have hb : (BitVec.ofNat 16 base : Half).toNat = base := toNat_halfOfNat (by omega)
  refine Slot.constructed_inv ((Slot.kindInv_fir rfl).mpr ?_)
  simp only [Slot.FirInv, Slot.constructed, reduceCtorEq, if_false, hn, hb]
  refine ⟨by omega, h.1.2, h.2, rfl, Nat.zero_le _, trivial, trivial, ?_⟩
  intro w hw
  rw [List.eq_of_mem_replicate (List.mem_of_mem_take hw)]
  exact fits_zero _

/-- The threshold is M or 2M (R203). -/
theorem threshold_cases (settle2 : Bool) (count : Nat) :
    threshold settle2 count = count ∨ threshold settle2 count = 2 * count := by
  cases settle2 <;> simp [threshold]

theorem Slot.constructedBq_inv {count base : Nat} (settle2 : Bool) (h : legalBq p count base = true) :
    (Slot.constructed p .bq count base (threshold settle2 count)).Inv p := by
  have hcap := p.histCap_ok
  have hdepth := p.coefDepth_ok
  have hthr := threshold_cases settle2 count
  simp only [legalBq, Bool.and_eq_true, bne_iff_ne, ne_eq, decide_eq_true_eq] at h
  have hn : (BitVec.ofNat 16 count : Half).toNat = count := toNat_halfOfNat (by omega)
  have hb : (BitVec.ofNat 16 base : Half).toNat = base := toNat_halfOfNat (by omega)
  have ht : (BitVec.ofNat 16 (threshold settle2 count) : Half).toNat = threshold settle2 count :=
    toNat_halfOfNat (by omega)
  refine Slot.constructed_inv ((Slot.kindInv_bq rfl).mpr ?_)
  simp only [Slot.BqInv, Slot.constructed, reduceCtorEq, if_false, hn, hb, ht]
  exact ⟨by omega, h.1.2, h.2, hthr, Nat.zero_le _, trivial, trivial⟩

/-! ### The MA step: the running sum is the sum of the window (R166) -/

/-- Replacing word i of a full window moves its sum by the difference of the two words. -/
theorem sum_take_set_of_lt {hist : List Int} {n i : Nat} (x : Int) (hi : i < n) (hn : n ≤ hist.length) :
    ((hist.set i x).take n).sum = (hist.take n).sum - hist.getD i 0 + x := by
  rw [List.take_set, List.sum_set', dif_pos (by simp; omega), List.getElem_take,
    List.getD_eq_getElem hist 0 (by omega)]
  ring

/-- Writing the word after a partly filled window adds it to the sum. -/
theorem sum_take_set_succ {hist : List Int} {i : Nat} (x : Int) (hi : i < hist.length) :
    ((hist.set i x).take (i + 1)).sum = (hist.take i).sum + x := by
  rw [List.take_add_one, List.take_set_of_le (Nat.le_refl i), List.getElem?_set_self hi]
  simp

/-- The MA step on a full window (R162 steps 1 to 3). -/
theorem maStep_slot_of_full (x : Int) (hf : sl.cnt = sl.n) : (maStep p sl x).slot = { sl with
    sum := wrapA p (wrapA p (sl.sum + x) - sl.hist.getD sl.widx.toNat 0)
    hist := sl.hist.set sl.widx.toNat x
    widx := BitVec.ofNat 16 ((sl.widx.toNat + 1) % sl.n.toNat) } := by
  simp [maStep, hf]

/-- The MA step on a window that is still filling (R162 steps 1 to 3). -/
theorem maStep_slot_of_filling (x : Int) (hf : sl.cnt ≠ sl.n) : (maStep p sl x).slot = { sl with
    cnt := sl.cnt + 1
    sum := wrapA p (sl.sum + x)
    hist := sl.hist.set sl.widx.toNat x
    widx := BitVec.ofNat 16 ((sl.widx.toNat + 1) % sl.n.toNat) } := by
  simp [maStep, hf]

/-- The next write index, below the window's length, is not cut off at 16 bits (R162 step 3). -/
theorem toNat_nextIndex {n i : Half} (hn : 1 ≤ n.toNat) :
    (BitVec.ofNat 16 ((i.toNat + 1) % n.toNat) : Half).toNat = (i.toNat + 1) % n.toNat :=
  toNat_halfOfNat ((Nat.mod_lt _ hn).trans n.isLt)

theorem maStep_maInv {x : Int} (hx : fits p.sampleBits x) (hlen : sl.hist.length = p.histCap) (h : sl.MaInv p) :
    (maStep p sl x).slot.MaInv p := by
  obtain ⟨hn, hcap, hbase, hthr, hcnt, hidx, hfill, hwin, hsum⟩ := h
  have hwidx := toNat_nextIndex (i := sl.widx) hn
  have hlt : (sl.widx.toNat + 1) % sl.n.toNat < sl.n.toNat := Nat.mod_lt _ hn
  have hwin' : ∀ w ∈ (sl.hist.set sl.widx.toNat x).take sl.n.toNat, fits p.sampleBits w := by
    rw [List.take_set]
    exact fits_of_mem_set hx hwin
  by_cases hf : sl.cnt = sl.n
  · rw [maStep_slot_of_full x hf]
    have hsum' : wrapA p (wrapA p (sl.sum + x) - sl.hist.getD sl.widx.toNat 0) =
        wrapA p ((sl.hist.set sl.widx.toNat x).take sl.cnt.toNat).sum := by
      rw [hf, sum_take_set_of_lt x hidx (by omega), hsum, hf]
      simp only [wrapA, wrap_add_left, wrap_sub_left]
      congr 1
      ring
    exact ⟨hn, hcap, hbase, hthr, hcnt, by simpa only [hwidx] using hlt, by simp [hf], hwin', hsum'⟩
  · rw [maStep_slot_of_filling x hf]
    have hlt_n : sl.cnt.toNat < sl.n.toNat := lt_of_le_of_ne hcnt fun e => hf (BitVec.eq_of_toNat_eq e)
    have hi : sl.widx.toNat = sl.cnt.toNat := by rw [hfill hlt_n]
    have hcnt' : (sl.cnt + 1).toNat = sl.cnt.toNat + 1 := by
      have := sl.n.isLt
      exact BitVec.toNat_add_of_lt (show sl.cnt.toNat + 1 < 2 ^ 16 by omega)
    have hfill' : sl.cnt.toNat + 1 < sl.n.toNat →
        (BitVec.ofNat 16 ((sl.widx.toNat + 1) % sl.n.toNat) : Half) = sl.cnt + 1 := by
      intro hlt'
      apply BitVec.eq_of_toNat_eq
      rw [hwidx, hi, hcnt', Nat.mod_eq_of_lt hlt']
    have hsum' : wrapA p (sl.sum + x) = wrapA p ((sl.hist.set sl.widx.toNat x).take (sl.cnt.toNat + 1)).sum := by
      rw [hi, sum_take_set_succ x (by omega), hsum]
      exact wrap_add_left _ _ _
    simp only [Slot.MaInv, hcnt', hwidx]
    exact ⟨hn, hcap, hbase, hthr, hlt_n, hlt, hfill', hwin', hsum'⟩

theorem maStep_slot_sum_fits (x : Int) : fits p.accBits (maStep p sl x).slot.sum := by
  by_cases hf : sl.cnt = sl.n
  · rw [maStep_slot_of_full x hf]; exact wrapA_fits p _
  · rw [maStep_slot_of_filling x hf]; exact wrapA_fits p _

theorem maStep_slot_hist (p : Params) (sl : Slot) (x : Int) :
    (maStep p sl x).slot.hist = sl.hist.set sl.widx.toNat x := rfl

theorem maStep_inv {x : Int} (hx : fits p.sampleBits x) (hk : sl.kind = .ma) (h : sl.Inv p) :
    (maStep p sl x).slot.Inv p where
  histLength := by rw [maStep_slot_hist, List.length_set, h.histLength]
  histFits := fits_of_mem_set (fits_accBits_of_sample p hx) h.histFits
  sumFits := maStep_slot_sum_fits x
  kindInv := (Slot.kindInv_ma (sl := (maStep p sl x).slot) hk).mpr
    (maStep_maInv hx h.histLength ((Slot.kindInv_ma hk).mp h.kindInv))

/-! ### The FIR step: the delay line holds Samples (R183) -/

/-- The delay line after a step is the input followed by the old delay line, cut to its N - 1 words (R183). -/
theorem delayIn_take {taps : Nat} {hist : List Int} (x : Int) (hn : taps ≤ hist.length) :
    (delayIn taps hist x).take (taps - 1) = (x :: hist).take (taps - 1) := by
  apply List.ext_getElem
  · simp; omega
  · intro j h1 h2
    simp only [List.length_take, delayIn_length] at h1
    have key := delayIn_getD taps hist x j hn
    rw [List.getD_eq_getElem _ _ (by simp; omega), if_pos (by omega)] at key
    rw [List.getElem_take, List.getElem_take, key]
    cases j with
    | zero => rfl
    | succ j => simp [List.getElem?_eq_getElem (show j < hist.length by omega)]

theorem delayIn_take_fits {taps b : Nat} {hist : List Int} {x : Int} (hx : fits b x) (hn : taps ≤ hist.length)
    (h : ∀ w ∈ hist.take (taps - 1), fits b w) : ∀ w ∈ (delayIn taps hist x).take (taps - 1), fits b w := by
  rw [delayIn_take x hn]
  intro w hw
  cases e : taps - 1 with
  | zero => simp [e] at hw
  | succ m =>
    rw [e, List.take_succ_cons] at hw
    rcases List.mem_cons.mp hw with rfl | hw
    · exact hx
    · exact h w (e ▸ List.take_subset_take_left hist (Nat.le_succ m) hw)

theorem firStep_inv {coef : Nat → Int} {x : Int} (hx : fits p.sampleBits x) (hk : sl.kind = .fir) (h : sl.Inv p) :
    (firStep p coef sl x).slot.Inv p where
  histLength := (delayIn_length _ _ _).trans h.histLength
  histFits := delayIn_fits _ (fits_accBits_of_sample p hx) h.histFits
  sumFits := h.sumFits
  kindInv := by
    obtain ⟨hn, hcap, hcoef, hthr, hcnt, hidx, hsum, hwin⟩ := (Slot.kindInv_fir hk).mp h.kindInv
    exact (Slot.kindInv_fir (sl := (firStep p coef sl x).slot) hk).mpr ⟨hn, hcap, hcoef, hthr,
      toNat_halfOfNat_min_le _ _, hidx, hsum, delayIn_take_fits hx (h.histLength ▸ hcap) hwin⟩

/-! ### The BQ step: the counter stays at or below the threshold (R209) -/

theorem bqStep_inv {coef : Nat → Int} {x : Int} (hx : fits p.sampleBits x) (hk : sl.kind = .bq) (h : sl.Inv p) :
    (bqStep p coef sl x).slot.Inv p where
  histLength := (runSections_length _ _ _ _ _).trans h.histLength
  histFits := (runSections_fits p _ _ (fits_accBits_of_sample p hx) h.histFits).1
  sumFits := h.sumFits
  kindInv := by
    obtain ⟨hn, hcap, hcoef, hthr, hcnt, hidx, hsum⟩ := (Slot.kindInv_bq hk).mp h.kindInv
    exact (Slot.kindInv_bq (sl := (bqStep p coef sl x).slot) hk).mpr
      ⟨hn, hcap, hcoef, hthr, toNat_halfOfNat_min_le _ _, hidx, hsum⟩

end Sys2Proof.Machine
end

section
/-! PROOFS. Every step keeps the invariant of the machine: update by update, command by command, turn by turn. -/

namespace Sys2Proof.Machine

namespace State.Inv

variable {s t : State}

/-! ### Updates of the state -/

/-- The invariant speaks of the parameters, the number of configuration blocks, the slots, coefficient RAM and the
pending command only. -/
theorem of_frame (h : s.Inv) (hp : t.params = s.params) (hi : t.instRegs.length = s.instRegs.length)
    (hs : t.slots = s.slots) (hc : t.coefRam = s.coefRam) (hr : t.rstN = false → t.pend = none) : t.Inv where
  instRegsLength := by rw [hi, hp, h.instRegsLength]
  slotsLength := by rw [hs, hp, h.slotsLength]
  slotsInv := by rw [hs, hp]; exact h.slotsInv
  coefRamWf := by rw [hc, hp]; exact h.coefRamWf
  resetIdle := hr

theorem slot (h : s.Inv) {k : Nat} (hk : k < s.params.numInst) : (s.slot k).Inv s.params :=
  h.slotsInv _ (State.slot_mem (h.slotsLength ▸ hk))

theorem complete (h : s.Inv) (v : Word) (code : Code) : (s.complete v code).Inv :=
  h.of_frame rfl rfl rfl rfl fun _ => rfl

theorem completeIllegal (h : s.Inv) (v : Word) : (s.completeIllegal v).Inv :=
  h.of_frame rfl rfl rfl rfl fun _ => rfl

theorem setResult (h : s.Inv) (y : Int) : (s.setResult y).Inv := h.of_frame rfl rfl rfl rfl h.resetIdle

theorem turnTaken (h : s.Inv) : s.turnTaken.Inv := h.of_frame rfl rfl rfl rfl h.resetIdle

theorem setSlot (h : s.Inv) (k : Nat) {sl : Slot} (hsl : sl.Inv s.params) : (s.setSlot k sl).Inv where
  instRegsLength := h.instRegsLength
  slotsLength := (List.length_set).trans h.slotsLength
  slotsInv := by
    intro u hu
    rcases List.mem_or_eq_of_mem_set hu with hu | rfl
    · exact h.slotsInv u hu
    · exact hsl
  coefRamWf := h.coefRamWf
  resetIdle := h.resetIdle

theorem writeCoef (h : s.Inv) {j : Nat} (hj : j < s.params.coefDepth) (v : Word) : (s.writeCoef j v).Inv where
  instRegsLength := h.instRegsLength
  slotsLength := h.slotsLength
  slotsInv := h.slotsInv
  coefRamWf := State.writeCoef_wf v hj h.coefRamWf
  resetIdle := h.resetIdle

/-! ### Commands -/

theorem onSlot (h : s.Inv) (v : Word) {k : Nat} {body : State → State}
    (hbody : k < s.params.numInst → (body s).Inv) : (s.onSlot v k body).Inv := by
  rcases Nat.lt_or_ge k s.params.numInst with hk | hk
  · rw [State.onSlot_of_lt hk]; exact hbody hk
  · rw [State.onSlot_of_ge hk]; exact h.complete v _

/-- A construction keeps the invariant if the slot it makes under its legality condition meets it (R120, R235). -/
theorem constructIf (h : s.Inv) (v : Word) {k : Nat} (hk : k < s.params.numInst) {legal : Bool} {kind : Kind}
    {count base thr : Nat} (hslot : legal = true → (Slot.constructed s.params kind count base thr).Inv s.params) :
    (s.constructIf v k legal kind count base thr).Inv := by
  rcases State.constructIf_cases s v k legal kind count base thr with ⟨hl, e⟩ | ⟨-, e⟩ <;> rw [e]
  · exact (h.setSlot k (hslot hl)).complete v _
  · exact (h.setSlot k (Slot.unbind_inv (h.slot hk))).complete v _

theorem stub (h : s.Inv) (v : Word) (k : Nat) : (s.stub v k).Inv := h.onSlot v fun _ => h.complete v _

theorem completeScaler (h : s.Inv) (v : Word) (r : Int) : (s.completeScaler v r).Inv := (h.setResult r).complete v _

/-- The step of a bound slot gives a slot that meets the invariant, whatever its kind. -/
theorem kindStep (h : s.Inv) {k : Nat} (hk : k < s.params.numInst) {r : StepResult} (hr : s.kindStep k = some r) :
    r.slot.Inv s.params := by
  cases kind : (s.slot k).kind <;> simp only [State.kindStep, kind, reduceCtorEq, Option.some.injEq] at hr <;> subst hr
  case ma => exact maStep_inv (sampleOperand_fits s) kind (h.slot hk)
  case fir => exact firStep_inv (sampleOperand_fits s) kind (h.slot hk)
  case bq => exact bqStep_inv (sampleOperand_fits s) kind (h.slot hk)

theorem execProcess {k : Nat} (h : s.Inv) (e : execProcess k s = .next t) : t.Inv := by
  cases e
  refine h.onSlot _ fun hk => ?_
  cases hr : s.kindStep k with
  | none => exact h.complete _ _
  | some r => exact ((h.setSlot k (h.kindStep hk hr)).setResult r.y).complete _ _

theorem exec {i : Instr} (h : s.Inv) (e : exec i s = .next t) : t.Inv := by
  cases i with
  | nop => cases e; exact h.complete _ _
  | initMa k => cases e; exact h.onSlot _ fun hk => h.constructIf _ hk Slot.constructedMa_inv
  | initFir k => cases e; exact h.onSlot _ fun hk => h.constructIf _ hk Slot.constructedFir_inv
  | initBq k => cases e; exact h.onSlot _ fun hk => h.constructIf _ hk (Slot.constructedBq_inv _)
  | initIirDf k => cases e; exact h.stub _ _
  | initIirLp k => cases e; exact h.stub _ _
  | initIirBp k => cases e; exact h.stub _ _
  | initIirBs k => cases e; exact h.stub _ _
  | process k => exact h.execProcess e
  | release k =>
    cases e
    exact h.onSlot _ fun hk => (h.setSlot k (Slot.unbind_inv (h.slot hk))).complete _ _
  | fxTofix => cases e; exact h.completeScaler _ _
  | fxFromfix => cases e; exact h.completeScaler _ _
  | fxMul => cases e; exact h.completeScaler _ _
  | fxNarrow => cases e; exact h.completeScaler _ _

theorem execute {v : Word} (h : s.Inv) (e : execute v s = .next t) : t.Inv := by
  rcases execute_cases v s with ⟨-, -, g⟩ | ⟨i, -, g⟩ <;> rw [g] at e
  · cases e; exact h.completeIllegal v
  · exact h.exec e

/-! ### The host's operations -/

/-- A performed write keeps the invariant: a coefficient word lies in its RAM, and a command is started out of reset
only. -/
theorem storeReg (h : s.Inv) (hup : s.rstN = true) {a : Nat} {r : Reg} (hr : regAt s.params a = some r) (v : Word) :
    (s.storeReg r v).Inv := by
  have up : ∀ u : State, u.rstN = s.rstN → u.rstN = false → u.pend = none := by
    intro u e hu
    rw [e, hup] at hu
    cases hu
  cases r with
  | coefWord j => exact h.writeCoef ((regAt_bounds hr).2 j rfl) v
  | cfg k => exact h.of_frame rfl List.length_set rfl rfl (up _ rfl)
  | coef k => exact h.of_frame rfl List.length_set rfl rfl (up _ rfl)
  | cmd => exact h.of_frame rfl rfl rfl rfl (up _ rfl)
  | opa => exact h.of_frame rfl rfl rfl rfl (up _ rfl)
  | opb => exact h.of_frame rfl rfl rfl rfl (up _ rfl)
  | err => exact h.of_frame rfl rfl rfl rfl (up _ rfl)
  | _ => exact h

theorem busWrite (h : s.Inv) (hup : s.rstN = true) (a : Addr) (size : Size) (v : Word) :
    (s.busWrite a size v).Inv := by
  rcases State.busWrite_cases s a size v with ⟨-, e⟩ | ⟨-, e⟩ | ⟨r, hf, e⟩ <;> rw [e]
  · exact h.of_frame rfl rfl rfl rfl h.resetIdle
  · exact h.of_frame rfl rfl rfl rfl h.resetIdle
  · obtain ⟨-, hr, -, -⟩ := (State.perform_iff s a size r).mp hf
    exact h.storeReg hup hr v

/-- The reset values meet the invariant, for any parameters and whatever the free values are (R262 to R264). -/
theorem resetOf (p : Params) (epoch : Nat) : (State.resetOf p epoch).Inv where
  instRegsLength := List.length_replicate
  slotsLength := (List.length_map _).trans List.length_range
  slotsInv := by
    intro sl hsl
    obtain ⟨k, -, rfl⟩ := List.mem_map.mp hsl
    exact Slot.afterReset_inv p epoch k
  coefRamWf := State.resetOf_coefRam_wf p epoch
  resetIdle := fun _ => rfl

theorem driveReset (h : s.Inv) (level : Bool) : (s.driveReset level).Inv := by
  rcases State.driveReset_cases s level with ⟨-, -, e⟩ | ⟨-, e⟩ <;> rw [e]
  · exact h
  · exact (resetOf s.params (s.epoch + 1)).of_frame rfl rfl rfl rfl fun _ => rfl

theorem hostOp {op : HostOp} (h : s.Inv) (e : hostOp op s = .next t) : t.Inv := by
  cases op with
  | read a size =>
    obtain ⟨-, rfl⟩ := State.transaction_next.mp e
    exact h.of_frame rfl rfl rfl rfl h.resetIdle
  | write a size v =>
    obtain ⟨hup, rfl⟩ := State.transaction_next.mp e
    exact h.busWrite hup a size v
  | poll =>
    obtain ⟨-, rfl⟩ := State.transaction_next.mp e
    rcases State.pollOnce_cases s with g | g <;> rw [g]
    · exact h
    · exact h.of_frame rfl rfl rfl rfl h.resetIdle
  | rstN level => cases e; exact h.driveReset level

end State.Inv

/-- Settles O60: taking a turn off the schedule, executing a command word and performing a host operation each keep the
invariant. -/
theorem everyStepKeepsTheInvariant : Obligations.EveryStepKeepsTheInvariant := by
  intro s t h e
  rcases step_next_cases e with rfl | ⟨v, -, -, e⟩ | ⟨op, rest, -, -, e⟩
  · exact h.turnTaken
  · exact h.turnTaken.execute e
  · exact (h.of_frame (t := { s with sched := s.sched.tail, host := rest }) rfl rfl rfl rfl h.resetIdle).hostOp e

end Sys2Proof.Machine
end

section
/-! PROOFS. The address map as a bijection between the registers that exist and their addresses, and what a 32-bit access to
the address of a register does (10_state.md R25, R26; 20_memory.md R64, R65, R67, R70, R72). -/

namespace Sys2Proof.Machine

/-- The registers an implementation has: those of its slots, its coefficient words, and the global ones (R25, R64). -/
def Reg.existsIn (p : Params) : Reg → Prop
  | .cfg k | .coef k | .state k | .idx k | .sum k | .bound k => k < p.numInst
  | .coefWord j => j < p.coefDepth
  | .id | .param | .param2 | .cmd | .opa | .opb | .result | .status | .err => True

/-! ### Addresses -/

/-- Inside a slot's block the offset says which register it is. -/
theorem regAt_block {p : Params} {k o : Nat} (hk : k < p.numInst) (ho : o < 0x20) :
    regAt p (0x100 + 0x20 * k + o) = blockReg k o := by
  rw [regAt, if_neg (by omega), if_pos (by omega), show (0x100 + 0x20 * k + o - 0x100) / 0x20 = k by omega,
    show (0x100 + 0x20 * k + o - 0x100) % 0x20 = o by omega]

theorem regAt_coefAddr {p : Params} {j : Nat} (hj : j < p.coefDepth) : regAt p (coefAddr j) = some (.coefWord j) := by
  have := p.numInst_ok
  unfold regAt coefAddr
  rw [if_neg (by omega), if_neg (by omega), if_pos (by omega)]
  congr 2
  omega

theorem regAt_addr {p : Params} {r : Reg} (hr : r.existsIn p) : regAt p r.addr = some r := by
  cases r with
  | cfg k => exact regAt_block (o := 0x00) hr (by decide)
  | coef k => exact regAt_block (o := 0x04) hr (by decide)
  | state k => exact regAt_block (o := 0x08) hr (by decide)
  | idx k => exact regAt_block (o := 0x0C) hr (by decide)
  | sum k => exact regAt_block (o := 0x10) hr (by decide)
  | bound k => exact regAt_block (o := 0x14) hr (by decide)
  | coefWord j => exact regAt_coefAddr hr
  | _ => rfl

theorem globalReg_eq_some {p : Params} {a : Nat} {r : Reg} (h : globalReg a = some r) : r.existsIn p ∧ a = r.addr := by
  unfold globalReg at h
  split at h <;> cases h <;> exact ⟨trivial, rfl⟩

theorem blockReg_eq_some {p : Params} {k o : Nat} {r : Reg} (hk : k < p.numInst) (h : blockReg k o = some r) :
    r.existsIn p ∧ r.addr = 0x100 + 0x20 * k + o := by
  unfold blockReg at h
  split at h <;> cases h <;> exact ⟨hk, rfl⟩

/-- What is mapped at an address is the one existing register with that address (R64). -/
theorem regAt_eq_some_iff {p : Params} {a : Nat} {r : Reg} : regAt p a = some r ↔ r.existsIn p ∧ a = r.addr := by
  refine ⟨fun h => ?_, fun ⟨hr, ha⟩ => ha ▸ regAt_addr hr⟩
  unfold regAt at h
  split_ifs at h with hglobal hblock hcoef
  · exact globalReg_eq_some h
  · obtain ⟨hr, ha⟩ := blockReg_eq_some (p := p) (by omega) h
    exact ⟨hr, by omega⟩
  · cases h
    simp only [coefAddr] at hcoef
    simp only [Reg.existsIn, Reg.addr, coefAddr]
    omega

/-- Every register has a word address in the 15-bit space (R62, R64). -/
theorem Reg.addr_lt {p : Params} {r : Reg} (hr : r.existsIn p) : r.addr < 2 ^ 15 := by
  have := p.numInst_ok
  have := p.coefDepth_ok
  cases r <;> simp only [Reg.existsIn, Reg.addr, coefAddr] at hr ⊢ <;> omega

theorem Reg.addr_aligned (r : Reg) : r.addr % 4 = 0 := by
  cases r <;> simp only [Reg.addr, coefAddr] <;> omega

/-! ### Accesses to the address of a register -/

variable {s : State} {r : Reg} {a : Nat}

theorem Reg.toNat_busAddr {p : Params} (hr : r.existsIn p) (ha : a = r.addr) : (BitVec.ofNat 15 a).toNat = r.addr := by
  rw [ha, BitVec.toNat_ofNat, Nat.mod_eq_of_lt (Reg.addr_lt hr)]

theorem takesEffect_busAddr {p : Params} (hr : r.existsIn p) (ha : a = r.addr) :
    takesEffect (BitVec.ofNat 15 a) .word = true := by
  simp [takesEffect, -BitVec.toNat_ofNat, Reg.toNat_busAddr hr ha, Reg.addr_aligned r]

/-- A 32-bit read at the address of an existing register reads that register (R65, R70). -/
theorem State.busRead_of_addr (hr : r.existsIn s.params) (ha : a = r.addr) :
    s.busRead (BitVec.ofNat 15 a) .word = s.readReg r := by
  rw [State.busRead, if_pos (takesEffect_busAddr hr ha), Reg.toNat_busAddr hr ha, regAt_addr hr]

/-- A 32-bit write at the address of an existing writable register is performed if no command is pending or the register is
ERR (R72, R115). -/
theorem State.busWrite_of_addr (hr : r.existsIn s.params) (ha : a = r.addr) (hw : r.access ≠ .ro)
    (hp : s.pend = none ∨ r.access = .w1c) (v : Word) : s.busWrite (BitVec.ofNat 15 a) .word v = s.storeReg r v := by
  have hf : s.writeFate (BitVec.ofNat 15 a) .word = .perform r := by
    refine (State.perform_iff s _ _ r).mpr
      ⟨takesEffect_busAddr hr ha, by rw [Reg.toNat_busAddr hr ha, regAt_addr hr], hw, fun hb => hp.resolve_left ?_⟩
    intro hp
    simp [State.busy, hp] at hb
  rw [State.busWrite, hf]

/-! ### The registers of a slot's block -/

theorem State.busRead_cfg {k : Nat} (hk : k < s.params.numInst) :
    s.busRead (BitVec.ofNat 15 (0x100 + 0x20 * k)) .word = (s.instReg k).cfgWord :=
  State.busRead_of_addr (r := .cfg k) hk rfl

theorem State.busRead_coef {k : Nat} (hk : k < s.params.numInst) :
    s.busRead (BitVec.ofNat 15 (0x104 + 0x20 * k)) .word = (s.instReg k).coefWord :=
  State.busRead_of_addr (r := .coef k) hk (by simp only [Reg.addr]; omega)

theorem State.busRead_state {k : Nat} (hk : k < s.params.numInst) :
    s.busRead (BitVec.ofNat 15 (0x108 + 0x20 * k)) .word = (s.slot k).stateWord :=
  State.busRead_of_addr (r := .state k) hk (by simp only [Reg.addr]; omega)

theorem State.busRead_idx {k : Nat} (hk : k < s.params.numInst) :
    s.busRead (BitVec.ofNat 15 (0x10C + 0x20 * k)) .word = (s.slot k).idxWord :=
  State.busRead_of_addr (r := .idx k) hk (by simp only [Reg.addr]; omega)

theorem State.busRead_sum {k : Nat} (hk : k < s.params.numInst) :
    s.busRead (BitVec.ofNat 15 (0x110 + 0x20 * k)) .word = (s.slot k).sumWord :=
  State.busRead_of_addr (r := .sum k) hk (by simp only [Reg.addr]; omega)

theorem State.busRead_bound {k : Nat} (hk : k < s.params.numInst) :
    s.busRead (BitVec.ofNat 15 (0x114 + 0x20 * k)) .word = (s.slot k).boundWord :=
  State.busRead_of_addr (r := .bound k) hk (by simp only [Reg.addr]; omega)

theorem State.busWrite_cfg {k : Nat} (hk : k < s.params.numInst) (hp : s.pend = none) (v : Word) :
    s.busWrite (BitVec.ofNat 15 (0x100 + 0x20 * k)) .word v =
      s.setInstReg k { s.instReg k with count := v.extractLsb' 0 16, settle2 := v.getLsbD 16 } :=
  State.busWrite_of_addr (r := .cfg k) hk rfl (by simp [Reg.access]) (.inl hp) v

theorem State.busWrite_coef {k : Nat} (hk : k < s.params.numInst) (hp : s.pend = none) (v : Word) :
    s.busWrite (BitVec.ofNat 15 (0x104 + 0x20 * k)) .word v =
      s.setInstReg k { s.instReg k with base := v.extractLsb' 0 16 } :=
  State.busWrite_of_addr (r := .coef k) hk (by simp only [Reg.addr]; omega) (by simp [Reg.access]) (.inl hp) v

end Sys2Proof.Machine
end

section
/-! PROOFS. The fields of the words the host reads (10_state.md R28, R29, R35 to R42). -/

namespace Sys2Proof.Machine

/-- Concatenation in numbers: the high part moved up by the width of the low part. -/
theorem toNat_append_eq_add {m n : Nat} (x : BitVec m) (y : BitVec n) :
    (x ++ y).toNat = x.toNat * 2 ^ n + y.toNat := by
  rw [BitVec.toNat_append, ← Nat.shiftLeft_add_eq_or_of_lt y.isLt, Nat.shiftLeft_eq]

theorem toNat_bit (b : Bool) : (bit b).toNat = b.toNat := by cases b <;> rfl

/-! ### PARAM and PARAM2 -/

/-- Every field of PARAM holds its parameter whole (R28). -/
theorem toNat_paramWord (p : Params) : (paramWord p).toNat = p.sampleBits + 256 * p.accBits + 65536 * p.numInst := by
  have := p.sampleBits_ok
  have := p.accBits_ok
  have := p.numInst_ok
  simp only [paramWord, toNat_append_eq_add, BitVec.ofNat_eq_ofNat, BitVec.toNat_ofNat]
  omega

theorem toNat_param2Word (p : Params) : (param2Word p).toNat = p.histCap + 65536 * p.coefDepth := by
  have := p.histCap_ok
  have := p.coefDepth_ok
  simp only [param2Word, toNat_append_eq_add, BitVec.toNat_ofNat]
  omega

/-! ### ERR -/

theorem ErrFlags.word_eq_add (e : ErrFlags) :
    e.word = (if e.illegal then 1 else 0) + (if e.busyWr then 2 else 0) + (if e.bus then 4 else 0) := by
  obtain ⟨illegal, busyWr, bus⟩ := e
  cases illegal <;> cases busyWr <;> cases bus <;> rfl

theorem ErrFlags.writeOneToClear_eq (e : ErrFlags) (v : Word) :
    e.writeOneToClear v = ⟨e.illegal && !v[0], e.busyWr && !v[1], e.bus && !v[2]⟩ := rfl

/-- Every flag of `e` but those whose bit of `v` is 1 is set in `e'` too (R35). -/
def ErrFlags.keptExcept (v : Word) (e e' : ErrFlags) : Prop :=
  (e.illegal = true → v[0] = false → e'.illegal = true) ∧ (e.busyWr = true → v[1] = false → e'.busyWr = true) ∧
    (e.bus = true → v[2] = false → e'.bus = true)

theorem ErrFlags.keptExcept_self (v : Word) (e : ErrFlags) : e.keptExcept v e :=
  ⟨fun h _ => h, fun h _ => h, fun h _ => h⟩

theorem ErrFlags.keptExcept_setIllegal (v : Word) (e : ErrFlags) : e.keptExcept v { e with illegal := true } :=
  ⟨fun _ _ => rfl, fun h _ => h, fun h _ => h⟩

theorem ErrFlags.keptExcept_setBusyWr (v : Word) (e : ErrFlags) : e.keptExcept v { e with busyWr := true } :=
  ⟨fun h _ => h, fun _ _ => rfl, fun h _ => h⟩

theorem ErrFlags.keptExcept_setBus (v : Word) (e : ErrFlags) : e.keptExcept v { e with bus := true } :=
  ⟨fun h _ => h, fun h _ => h, fun _ _ => rfl⟩

theorem ErrFlags.keptExcept_writeOneToClear (v : Word) (e : ErrFlags) : e.keptExcept v (e.writeOneToClear v) := by
  rw [e.writeOneToClear_eq v]
  refine ⟨?_, ?_, ?_⟩ <;> intro he hv <;> simp [he, hv]

/-! ### INSTs_CFG and INSTs_COEF -/

/-- What INSTs_CFG reads after a write is the low 17 bits written (R37). -/
theorem InstRegs.cfgWord_of_write (r : InstRegs) (v : Word) :
    InstRegs.cfgWord { r with count := v.extractLsb' 0 16, settle2 := v.getLsbD 16 } = v &&& 0x1FFFF := by
  apply BitVec.eq_of_toNat_eq
  have hmask : (v &&& 0x1FFFF).toNat = v.toNat % 2 ^ 17 := Nat.and_two_pow_sub_one_eq_mod v.toNat 17
  have hbit : (v.getLsbD 16).toNat = v.toNat / 2 ^ 16 % 2 := Nat.toNat_testBit v.toNat 16
  rw [hmask]
  simp only [InstRegs.cfgWord, toNat_append_eq_add, toNat_bit, hbit, BitVec.extractLsb'_toNat,
    BitVec.ofNat_eq_ofNat, BitVec.toNat_ofNat, Nat.shiftRight_zero]
  omega

/-- What INSTs_COEF reads after a write is the low 16 bits written (R38). -/
theorem InstRegs.coefWord_of_write (r : InstRegs) (v : Word) :
    InstRegs.coefWord { r with base := v.extractLsb' 0 16 } = v &&& 0xFFFF := by
  apply BitVec.eq_of_toNat_eq
  have hmask : (v &&& 0xFFFF).toNat = v.toNat % 2 ^ 16 := Nat.and_two_pow_sub_one_eq_mod v.toNat 16
  rw [hmask]
  simp only [InstRegs.coefWord, toNat_append_eq_add, BitVec.extractLsb'_toNat,
    BitVec.ofNat_eq_ofNat, BitVec.toNat_ofNat, Nat.shiftRight_zero]
  omega

/-! ### INSTs_STATE -/

/-- The fields of INSTs_STATE: KIND, SETTLED, twelve zeros, CNT (R39). -/
theorem Slot.stateWord_fields (sl : Slot) :
    sl.stateWord.extractLsb' 0 3 = sl.kind.number ∧ sl.stateWord.getLsbD 3 = sl.settled ∧
      sl.stateWord.extractLsb' 4 12 = 0 ∧ sl.stateWord.extractLsb' 16 16 = sl.cnt := by
  unfold Slot.stateWord
  refine ⟨BitVec.extractLsb'_append_eq_right, ?_, ?_, ?_⟩
  · rw [BitVec.getLsbD_append, BitVec.getLsbD_append]
    simp [bit]
  · rw [BitVec.extractLsb'_append_eq_of_le (by decide), BitVec.extractLsb'_append_eq_of_le (by decide)]
    exact BitVec.extractLsb'_append_eq_right
  · rw [BitVec.extractLsb'_append_eq_of_le (by decide), BitVec.extractLsb'_append_eq_of_le (by decide)]
    exact BitVec.extractLsb'_append_eq_left

end Sys2Proof.Machine
end

section
/-! PROOFS. The statements about the registers: ERR, OPA, OPB, configuration, identification and view registers, and what a
turn of the host leaves alone (10_state.md R23 to R42). -/

namespace Sys2Proof.Machine

/-! ### Writes and reads of one register -/

/-- Settles O17: ERR is the one register a write acts on in every state, and the write clears the ones (R26, R35). -/
theorem errWriteClearsTheOnes : Obligations.ErrWriteClearsTheOnes := fun s v =>
  ⟨State.busWrite_of_addr (s := s) (r := .err) trivial rfl (by decide) (.inr rfl) v,
    (State.busRead_of_addr (s := s) (r := .err) trivial rfl).trans s.err.word_eq_add⟩

/-- Settles O19: with nothing pending both writes are performed, and the registers keep whole words (R31, R32). -/
theorem operandRegistersReadBack : Obligations.OperandRegistersReadBack := by
  intro s v hp
  have ha : s.busWrite 0x014 .word v = { s with opa := v } :=
    State.busWrite_of_addr (r := .opa) trivial rfl (by decide) (.inl hp) v
  have hb : s.busWrite 0x018 .word v = { s with opb := v } :=
    State.busWrite_of_addr (r := .opb) trivial rfl (by decide) (.inl hp) v
  rw [ha, hb]
  exact ⟨rfl, rfl, State.busRead_of_addr (r := .opa) trivial rfl, State.busRead_of_addr (r := .opb) trivial rfl⟩

/-- Settles O20: each write replaces its fields of the one configuration block of the slot (R37, R38). -/
theorem configurationRegistersReadBack : Obligations.ConfigurationRegistersReadBack := by
  intro s k v hp hk hlen
  have hself : ∀ r : InstRegs, (s.setInstReg k r).instReg k = r := by simp [State.instReg_setInstReg, hlen, hk]
  have hother : ∀ r : InstRegs, ∀ j ≠ k, (s.setInstReg k r).instReg j = s.instReg j := by
    intro r j hj
    simp [State.instReg_setInstReg, hj]
  have hk' : ∀ r : InstRegs, k < (s.setInstReg k r).params.numInst := fun _ => hk
  simp only [State.busWrite_cfg hk hp, State.busWrite_coef hk hp, State.busRead_cfg hk, State.busRead_coef hk,
    State.busRead_cfg (hk' _), State.busRead_coef (hk' _), hself]
  exact ⟨⟨InstRegs.cfgWord_of_write _ v, rfl, rfl, hother _⟩, InstRegs.coefWord_of_write _ v, rfl, rfl, hother _⟩

/-- Settles O25: the address map selects the view register, whose word is its fields side by side (R39 to R42). -/
theorem viewRegistersShowTheSlot : Obligations.ViewRegistersShowTheSlot := by
  intro s k hk
  obtain ⟨hkind, hsettled, hzero, hcnt⟩ := (s.slot k).stateWord_fields
  simp only [State.busRead_state hk, State.busRead_idx hk, State.busRead_sum hk, State.busRead_bound hk]
  refine ⟨?_, ?_, hzero, hcnt, BitVec.extractLsb'_append_eq_right, BitVec.extractLsb'_append_eq_left, rfl,
    BitVec.extractLsb'_append_eq_right, BitVec.extractLsb'_append_eq_left⟩
  · rw [hkind]
    cases (s.slot k).kind <;> rfl
  · rw [hsettled, Slot.settled]
    cases (s.slot k).kind <;> simp

/-- Settles O23: the three registers read words made of the parameters alone, which no step changes (R27 to R29). -/
theorem identificationRegistersAreConstant : Obligations.IdentificationRegistersAreConstant := by
  refine ⟨fun s => ?_, fun s t => step_params⟩
  have hid : s.busRead 0x000 .word = idWord := State.busRead_of_addr (r := .id) trivial rfl
  have hparam : s.busRead 0x004 .word = paramWord s.params := State.busRead_of_addr (r := .param) trivial rfl
  have hparam2 : s.busRead 0x008 .word = param2Word s.params := State.busRead_of_addr (r := .param2) trivial rfl
  rw [hid, hparam, hparam2]
  refine ⟨rfl, toNat_paramWord _, toNat_param2Word _, fun hp => ?_⟩
  rw [hp]
  exact ⟨rfl, rfl⟩

/-! ### The frame of a host operation -/

/-- Settles O11: this is the frame of the host's operations, read in the order of the statement. -/
theorem hostOperationsLeaveResultsAlone : Obligations.HostOperationsLeaveResultsAlone := by
  intro s t op hop h
  obtain ⟨-, hparams, hrst, hresult, hcode, hlastOp, hlastInst, hslots, hepoch, hsched⟩ := hostOp_frame hop h
  exact ⟨hslots, hresult, hcode, hlastOp, hlastInst, hparams, hrst, hepoch, hsched⟩

/-! ### ERR over a step -/

/-- A performed write to another register leaves ERR alone. -/
theorem State.storeReg_err {r : Reg} (hr : r ≠ .err) (s : State) (v : Word) : (s.storeReg r v).err = s.err := by
  cases r with
  | err => exact absurd rfl hr
  | _ => rfl

/-- A host write loses a flag only if it is a 32-bit write to ERR (R35, R70). -/
theorem State.busWrite_err (s : State) (a : Addr) (size : Size) (v : Word) :
    (a = 0x024 ∧ size = .word ∧ (s.busWrite a size v).err = s.err.writeOneToClear v) ∨
      ∀ w, s.err.keptExcept w (s.busWrite a size v).err := by
  rcases State.busWrite_cases s a size v with ⟨-, e⟩ | ⟨-, e⟩ | ⟨r, hf, e⟩ <;> rw [e]
  · exact .inr fun w => s.err.keptExcept_setBus w
  · exact .inr fun w => s.err.keptExcept_setBusyWr w
  · by_cases hr : r = .err
    · subst hr
      obtain ⟨heff, hreg, -, -⟩ := (State.perform_iff s a size .err).mp hf
      obtain ⟨-, ha⟩ := regAt_eq_some_iff.mp hreg
      simp only [takesEffect, Bool.and_eq_true, beq_iff_eq] at heff
      exact .inl ⟨BitVec.eq_of_toNat_eq ha, heff.1, rfl⟩
    · rw [State.storeReg_err hr]
      exact .inr fun w => s.err.keptExcept_self w

/-- Settles O18: a command word sets at most ERR.ILLEGAL, and of the host's operations only a write to ERR or a reset clears
a flag (R35, R253). -/
theorem errFlagsAreSticky : Obligations.ErrFlagsAreSticky := by
  intro s t h
  have kept : s.err.keptExcept 0 t.err → ∃ v : Word,
      (v ≠ 0 → s.turn = .host ∧ ∃ rest, s.host = .write 0x024 .word v :: rest) ∧ s.err.keptExcept v t.err :=
    fun hk => ⟨0, fun hne => absurd rfl hne, hk⟩
  rcases step_next_cases h with rfl | ⟨v, -, -, e⟩ | ⟨op, rest, hturn, hops, e⟩
  · exact .inr (kept (s.err.keptExcept_self 0))
  · refine .inr (kept ?_)
    rcases execute_err e with herr | herr <;> rw [herr]
    · exact s.err.keptExcept_self 0
    · exact s.err.keptExcept_setIllegal 0
  · cases op with
    | rstN level => exact .inl ⟨hturn, level, rest, hops⟩
    | read a size =>
      obtain ⟨-, rfl⟩ := State.transaction_next.mp e
      exact .inr (kept (s.err.keptExcept_self 0))
    | poll =>
      obtain ⟨-, rfl⟩ := State.transaction_next.mp e
      refine .inr (kept ?_)
      rcases State.pollOnce_cases { s with sched := s.sched.tail, host := rest } with g | g <;> rw [g] <;>
        exact s.err.keptExcept_self 0
    | write a size v =>
      obtain ⟨-, rfl⟩ := State.transaction_next.mp e
      rcases State.busWrite_err { s with sched := s.sched.tail, host := rest } a size v with ⟨rfl, rfl, herr⟩ | hk
      · exact .inr ⟨v, fun _ => ⟨hturn, rest, hops⟩, herr ▸ s.err.keptExcept_writeOneToClear v⟩
      · exact .inr (kept (hk 0))

end Sys2Proof.Machine
end

section
/-! PROOFS. Which accesses of the host reach a register: the address map as R64 writes it, and what becomes of a write that
reaches none, a read-only one, or any while a command is pending (20_memory.md R64, R65, R70, R72). -/

namespace Sys2Proof.Machine

variable {p : Params} {s : State} {a : Addr} {size : Size}

/-! ### The addresses of R64 -/

/-- R64 assigns exactly the addresses at which a register is mapped. -/
theorem mappedAddr_iff {n : Nat} : mappedAddr p n ↔ ∃ r, regAt p n = some r := by
  simp only [regAt_eq_some_iff]
  constructor
  · rintro (hglobal | ⟨k, hk, o, ho, rfl⟩ | ⟨j, hj, rfl⟩)
    · simp only [List.mem_cons, List.not_mem_nil, or_false] at hglobal
      rcases hglobal with rfl | rfl | rfl | rfl | rfl | rfl | rfl | rfl | rfl
      exacts [⟨.id, trivial, rfl⟩, ⟨.param, trivial, rfl⟩, ⟨.param2, trivial, rfl⟩, ⟨.cmd, trivial, rfl⟩,
        ⟨.opa, trivial, rfl⟩, ⟨.opb, trivial, rfl⟩, ⟨.result, trivial, rfl⟩, ⟨.status, trivial, rfl⟩, ⟨.err, trivial, rfl⟩]
    · simp only [List.mem_cons, List.not_mem_nil, or_false] at ho
      rcases ho with rfl | rfl | rfl | rfl | rfl | rfl
      exacts [⟨.cfg k, hk, rfl⟩, ⟨.coef k, hk, rfl⟩, ⟨.state k, hk, rfl⟩, ⟨.idx k, hk, rfl⟩, ⟨.sum k, hk, rfl⟩,
        ⟨.bound k, hk, rfl⟩]
    · exact ⟨.coefWord j, hj, rfl⟩
  · rintro ⟨r, hr, rfl⟩
    cases r with
    | cfg k => exact .inr (.inl ⟨k, hr, 0x00, by decide, rfl⟩)
    | coef k => exact .inr (.inl ⟨k, hr, 0x04, by decide, rfl⟩)
    | state k => exact .inr (.inl ⟨k, hr, 0x08, by decide, rfl⟩)
    | idx k => exact .inr (.inl ⟨k, hr, 0x0C, by decide, rfl⟩)
    | sum k => exact .inr (.inl ⟨k, hr, 0x10, by decide, rfl⟩)
    | bound k => exact .inr (.inl ⟨k, hr, 0x14, by decide, rfl⟩)
    | coefWord j => exact .inr (.inr ⟨j, hr, rfl⟩)
    | _ => exact .inl (by decide)

/-- R65's unmapped addresses. -/
theorem not_mappedAddr_iff {n : Nat} : ¬ mappedAddr p n ↔ regAt p n = none := by
  rw [mappedAddr_iff, ← Option.isSome_iff_exists, Option.not_isSome_iff_eq_none]

/-- The addresses R72 lists are those of the registers with access type RO. -/
theorem readOnlyAddr_iff {n : Nat} : readOnlyAddr p n ↔ ∃ r, regAt p n = some r ∧ r.access = .ro := by
  simp only [regAt_eq_some_iff]
  constructor
  · rintro (hglobal | ⟨k, hk, o, ho, rfl⟩)
    · simp only [List.mem_cons, List.not_mem_nil, or_false] at hglobal
      rcases hglobal with rfl | rfl | rfl | rfl | rfl
      exacts [⟨.id, ⟨trivial, rfl⟩, rfl⟩, ⟨.param, ⟨trivial, rfl⟩, rfl⟩, ⟨.param2, ⟨trivial, rfl⟩, rfl⟩,
        ⟨.result, ⟨trivial, rfl⟩, rfl⟩, ⟨.status, ⟨trivial, rfl⟩, rfl⟩]
    · simp only [List.mem_cons, List.not_mem_nil, or_false] at ho
      rcases ho with rfl | rfl | rfl | rfl
      exacts [⟨.state k, ⟨hk, rfl⟩, rfl⟩, ⟨.idx k, ⟨hk, rfl⟩, rfl⟩, ⟨.sum k, ⟨hk, rfl⟩, rfl⟩,
        ⟨.bound k, ⟨hk, rfl⟩, rfl⟩]
  · rintro ⟨r, ⟨hr, rfl⟩, hro⟩
    cases r with
    | state k => exact .inr ⟨k, hr, 0x08, by decide, rfl⟩
    | idx k => exact .inr ⟨k, hr, 0x0C, by decide, rfl⟩
    | sum k => exact .inr ⟨k, hr, 0x10, by decide, rfl⟩
    | bound k => exact .inr ⟨k, hr, 0x14, by decide, rfl⟩
    | id | param | param2 | result | status => exact .inl (by decide)
    | cmd | opa | opb | err | cfg | coef | coefWord => cases hro

/-! ### The fate of an access -/

/-- Alignment is the two low address bits 0 (R70). -/
theorem takesEffect_iff : takesEffect a size = true ↔ size = .word ∧ a.extractLsb' 0 2 = 0 := by
  have halign : a.extractLsb' 0 2 = 0 ↔ a.toNat % 4 = 0 := by
    simp [← BitVec.toNat_inj, BitVec.extractLsb'_toNat]
  rw [halign, takesEffect, Bool.and_eq_true, beq_iff_eq, beq_iff_eq]

/-- An access that takes no effect, or at an address where nothing is mapped, reads 0 (R65, R70). -/
theorem State.busRead_eq_zero (h : takesEffect a size = true → regAt s.params a.toNat = none) :
    s.busRead a size = 0 := by
  unfold State.busRead
  split_ifs with heff
  · rw [h heff]
  · rfl

/-- The bus drops every write but an effective one to a mapped register that is not read-only, whether or not a command is
pending (R72). -/
theorem State.writeFate_eq_dropBus_iff : s.writeFate a size = .dropBus ↔
    (takesEffect a size = true → ∀ r, regAt s.params a.toNat = some r → r.access = .ro) := by
  unfold State.writeFate
  cases takesEffect a size with
  | false => simp
  | true =>
    cases regAt s.params a.toNat with
    | none => simp
    | some r => cases hacc : r.access <;> cases s.busy <;> simp [hacc]

/-- The conditions of R72 for a bus drop, in the order it writes them. -/
theorem State.writeFate_eq_dropBus_iff_addr : s.writeFate a size = .dropBus ↔
    size ≠ .word ∨ a.extractLsb' 0 2 ≠ 0 ∨ ¬ mappedAddr s.params a.toNat ∨ readOnlyAddr s.params a.toNat := by
  rw [State.writeFate_eq_dropBus_iff, takesEffect_iff, not_mappedAddr_iff, readOnlyAddr_iff]
  cases regAt s.params a.toNat with
  | none => simp
  | some r => simp; tauto

theorem State.busWrite_of_dropBus (h : s.writeFate a size = .dropBus) (v : Word) :
    s.busWrite a size v = { s with err := { s.err with bus := true } } := by
  rw [State.busWrite, h]
  rfl

/-- While a command is pending a write the bus does not drop is dropped too, unless it is to ERR (R72, R115). -/
theorem State.busWrite_of_busy (hbus : s.writeFate a size ≠ .dropBus) (hp : s.pend ≠ none) (ha : a ≠ 0x024) (v : Word) :
    s.busWrite a size v = { s with err := { s.err with busyWr := true } } := by
  rcases State.busWrite_cases s a size v with ⟨hf, -⟩ | ⟨-, e⟩ | ⟨r, hf, -⟩
  · exact absurd hf hbus
  · exact e
  · obtain ⟨-, hreg, -, hw1c⟩ := (State.perform_iff s a size r).mp hf
    have hacc : r.access = .w1c := hw1c (Option.isSome_iff_ne_none.mpr hp)
    have hr : r = .err := by cases r <;> cases hacc; rfl
    subst hr
    exact absurd (BitVec.eq_of_toNat_eq (regAt_eq_some_iff.mp hreg).2) ha

/-- Settles O15: such an access reaches no register, so it reads 0 and the bus drops it (R65, R70). -/
theorem ineffectiveAccessesReadZeroAndDrop : Obligations.IneffectiveAccessesReadZeroAndDrop := by
  intro s a size v h
  have hread : s.busRead a size = 0 := by
    refine State.busRead_eq_zero fun heff => ?_
    obtain ⟨hsize, halign⟩ := takesEffect_iff.mp heff
    exact not_mappedAddr_iff.mp ((h.resolve_left (not_not.mpr hsize)).resolve_left (not_not.mpr halign))
  have hwrite : s.busWrite a size v = { s with err := { s.err with bus := true } } :=
    State.busWrite_of_dropBus (State.writeFate_eq_dropBus_iff_addr.mpr (h.imp_right (Or.imp_right .inl))) v
  refine ⟨hread, hwrite, fun hup => ⟨?_, ?_⟩⟩
  · rw [hostOp, State.transaction_of_up hup, hread]
  · rw [hostOp, State.transaction_of_up hup, hwrite]

/-- Settles O16: the bus drops come first, and of what they let through only a write to ERR escapes the busy drop (R72). -/
theorem droppedWritesOnlySetTheirFlag : Obligations.DroppedWritesOnlySetTheirFlag := fun _ _ _ v =>
  ⟨fun hbus => State.busWrite_of_dropBus (State.writeFate_eq_dropBus_iff_addr.mpr hbus) v,
    fun hbus hp ha => State.busWrite_of_busy (mt State.writeFate_eq_dropBus_iff_addr.mp hbus) hp ha v⟩

/-- Settles O10: a pending command makes every write change ERR alone; a read appends to the record of reads, and a poll can
only put itself back on the host's list (R76, R115). -/
theorem hostCannotDisturbPendingCommand : Obligations.HostCannotDisturbPendingCommand := by
  intro s t op hp hop h
  cases op with
  | read a size =>
    obtain ⟨-, rfl⟩ := State.transaction_next.mp h
    rfl
  | write a size v =>
    obtain ⟨-, rfl⟩ := State.transaction_next.mp h
    obtain ⟨-, -, -, -, -, -, -, -, -, -, -, herr⟩ := State.busWrite_frame s a size v
    rw [herr (Option.isSome_iff_ne_none.mpr hp)]
  | poll =>
    obtain ⟨-, rfl⟩ := State.transaction_next.mp h
    rcases State.pollOnce_cases s with e | e <;> rw [e]
  | rstN level => exact absurd rfl (hop level)

/-- Settles O14: a read appends its value to the record of reads, and what the bus reads depends on neither that record nor
the host's list nor the schedule (R71). -/
theorem readsChangeNothing : Obligations.ReadsChangeNothing := by
  intro s a size rest hturn hops hup
  refine ⟨_, ?_, rfl, fun _ _ => rfl⟩
  rw [step_of_host hturn, hostTurn_cons (s := s.turnTaken) hops]
  exact State.transaction_of_up hup

end Sys2Proof.Machine
end

section
/-! PROOFS. Coefficient RAM: what a write through the COEF window stores and leaves, and that nothing else but reset changes a
byte of it (20_memory.md R67 to R69). -/

namespace Sys2Proof.Machine

variable {s t : State} {j : Nat}

/-! ### A byte, a word and a coefficient after a window write -/

theorem State.byteAt_writeCoef (h : s.coefRam.wf s.params = true) (j : Nat) (v : Word) (b : Nat) :
    (s.writeCoef j v).byteAt b =
      if coefAddr j ≤ b ∧ b < coefAddr j + 4 then byteLane (word32 (sext s.params.accBits v)) (b - coefAddr j)
      else s.byteAt b := by
  obtain ⟨hsorted, -⟩ := (Memory.wf_iff _ _).mp h
  simp only [State.byteAt, State.writeCoef_coefRam, State.writeCoef_epoch, Memory.find?_writeWord _ _ _ hsorted]
  split_ifs <;> rfl

theorem State.byteAt_writeCoef_of_outside (h : s.coefRam.wf s.params = true) (v : Word) {b : Nat}
    (hb : ¬ (coefAddr j ≤ b ∧ b < coefAddr j + 4)) : (s.writeCoef j v).byteAt b = s.byteAt b := by
  rw [State.byteAt_writeCoef h, if_neg hb]

theorem State.wordAt_writeCoef_self (h : s.coefRam.wf s.params = true) (j : Nat) (v : Word) :
    (s.writeCoef j v).wordAt (coefAddr j) = word32 (sext s.params.accBits v) := by
  simp only [State.wordAt, State.byteAt_writeCoef h]
  simpa using byteLanes_append (word32 (sext s.params.accBits v))

/-- The coefficient reads as the A-bit value written: 32 bits hold it whole (R12, R67). -/
theorem State.coef_writeCoef_self (h : s.coefRam.wf s.params = true) (j : Nat) (v : Word) :
    (s.writeCoef j v).coef j = sext s.params.accBits v := by
  rw [State.coef, State.wordAt_writeCoef_self h, State.writeCoef_params, sext_word32 s.params.accBits_ok.2]
  exact wrap_wrap _ _

/-- The four lanes of different coefficient words are disjoint (R67). -/
theorem State.coef_writeCoef_ne (h : s.coefRam.wf s.params = true) (v : Word) {i : Nat} (hij : i ≠ j) :
    (s.writeCoef j v).coef i = s.coef i := by
  have hlane : ∀ b, coefAddr i ≤ b → b < coefAddr i + 4 → (s.writeCoef j v).byteAt b = s.byteAt b := fun b hb hb' =>
    State.byteAt_writeCoef_of_outside h v (by unfold coefAddr at *; omega)
  simp (disch := omega) only [State.coef, State.wordAt, State.writeCoef_params, hlane]

/-! ### The window -/

theorem State.busRead_coefWord (hj : j < s.params.coefDepth) :
    s.busRead (BitVec.ofNat 15 (0x4000 + 4 * j)) .word = word32 (s.coef j) :=
  State.busRead_of_addr (r := .coefWord j) hj rfl

theorem State.busWrite_coefWord (hj : j < s.params.coefDepth) (hp : s.pend = none) (v : Word) :
    s.busWrite (BitVec.ofNat 15 (0x4000 + 4 * j)) .word v = s.writeCoef j v :=
  State.busWrite_of_addr (r := .coefWord j) hj rfl (by simp [Reg.access]) (.inl hp) v

/-- Settles O21: the write through the window is `writeCoef`, whose four lanes make the coefficient read back (R67, R69). -/
theorem coefWindowReadsWhatWasWritten : Obligations.CoefWindowReadsWhatWasWritten := by
  intro s j v hwf hp hj
  have hj' : j < (s.writeCoef j v).params.coefDepth := hj
  simp only [State.busWrite_coefWord hj hp, State.busRead_coefWord hj', State.coef_writeCoef_self hwf]
  exact ⟨trivial, trivial, fun b hb => State.byteAt_writeCoef_of_outside hwf v hb,
    fun i hij => State.coef_writeCoef_ne hwf v hij, rfl, fun i hi => State.busRead_coefWord hi⟩

/-! ### Who writes coefficient RAM -/

/-- No command word writes coefficient RAM (R68). -/
theorem execute_byteAt {v : Word} (h : execute v s = .next t) (a : Nat) : t.byteAt a = s.byteAt a := by
  rcases execute_cases v s with ⟨-, -, g⟩ | ⟨i, -, g⟩ <;> rw [g] at h
  · cases h; rfl
  · obtain ⟨-, -, -, -, -, hram, hepoch⟩ := exec_frame h
    exact State.byteAt_congr hram hepoch a

/-- Of the performed writes only those to a coefficient word write coefficient RAM. -/
theorem State.storeReg_coefRam {r : Reg} (hr : ∀ j, r ≠ .coefWord j) (s : State) (v : Word) :
    (s.storeReg r v).coefRam = s.coefRam := by
  cases r with
  | coefWord j => exact absurd rfl (hr j)
  | _ => rfl

/-- A host write leaves coefficient RAM alone, or is a 32-bit write to a window word with no command pending (R67, R68). -/
theorem State.busWrite_coefRam_cases (s : State) (a : Addr) (size : Size) (v : Word) :
    (s.busWrite a size v).coefRam = s.coefRam ∨
      size = .word ∧ s.pend = none ∧ ∃ j < s.params.coefDepth, a.toNat = coefAddr j ∧
        s.busWrite a size v = s.writeCoef j v := by
  rcases State.busWrite_cases s a size v with ⟨-, e⟩ | ⟨-, e⟩ | ⟨r, hf, e⟩
  · exact .inl (by rw [e]; rfl)
  · exact .inl (by rw [e]; rfl)
  · by_cases hr : ∃ j, r = .coefWord j
    · obtain ⟨j, rfl⟩ := hr
      obtain ⟨heff, hreg, -, hbusy⟩ := (State.perform_iff s a size _).mp hf
      obtain ⟨hj, ha⟩ := regAt_eq_some_iff.mp hreg
      have hp : s.pend = none := by simpa [State.busy, Reg.access] using hbusy
      exact .inr ⟨(takesEffect_iff.mp heff).1, hp, j, hj, ha, e⟩
    · exact .inl (by rw [e]; exact State.storeReg_coefRam (not_exists.mp hr) s v)

/-- A byte that a host operation other than driving reset changes lies in the window word that the operation writes. -/
theorem hostOp_byteAt_ne {op : HostOp} (hwf : s.coefRam.wf s.params = true) (hop : ∀ level, op ≠ .rstN level)
    (h : hostOp op s = .next t) {a : Nat} (ha : t.byteAt a ≠ s.byteAt a) :
    ∃ (b : Addr) (v : Word), op = .write b .word v ∧ s.pend = none ∧
      (∃ j < s.params.coefDepth, b.toNat = 0x4000 + 4 * j) ∧ b.toNat ≤ a ∧ a < b.toNat + 4 := by
  cases op with
  | read c size =>
    obtain ⟨-, rfl⟩ := State.transaction_next.mp h
    exact absurd rfl ha
  | write c size v =>
    obtain ⟨-, -, -, -, -, -, -, -, hepoch, -⟩ := hostOp_frame hop h
    obtain ⟨-, rfl⟩ := State.transaction_next.mp h
    rcases State.busWrite_coefRam_cases s c size v with hram | ⟨rfl, hp, j, hj, hc, e⟩
    · exact absurd (State.byteAt_congr hram hepoch a) ha
    · rw [e] at ha
      have hlane : coefAddr j ≤ a ∧ a < coefAddr j + 4 :=
        not_not.mp (mt (State.byteAt_writeCoef_of_outside hwf v) ha)
      exact ⟨c, v, rfl, hp, ⟨j, hj, hc⟩, hc ▸ hlane⟩
  | poll =>
    obtain ⟨-, rfl⟩ := State.transaction_next.mp h
    rcases State.pollOnce_cases s with e | e <;> rw [e] at ha <;> exact absurd rfl ha
  | rstN level => exact absurd rfl (hop level)

/-- Settles O22: neither a command nor a turn with nothing to do changes a byte, so the step is a host operation, and one that
changes a byte drives reset or writes the byte's window word (R68, R263). -/
theorem onlyTheHostWritesCoefficients : Obligations.OnlyTheHostWritesCoefficients := by
  constructor
  · intro i s t h a
    obtain ⟨-, -, -, -, -, hram, hepoch⟩ := exec_frame h
    exact State.byteAt_congr hram hepoch a
  · intro s t hwf h a ha
    rcases step_next_cases h with rfl | ⟨v, -, -, e⟩ | ⟨op, rest, hturn, hops, e⟩
    · exact absurd rfl ha
    · exact absurd (execute_byteAt e a) ha
    · refine ⟨hturn, op, rest, hops, ?_⟩
      by_cases hop : ∃ level, op = .rstN level
      · exact .inl hop
      · exact .inr (hostOp_byteAt_ne (s := { s with sched := s.sched.tail, host := rest }) hwf (not_exists.mp hop) e ha)

end Sys2Proof.Machine
end

section
/-! PROOFS. Which words the decoder accepts, field by field and by mask and match, and how every other word completes
(30_encoding.md R91, R96, R97, R99; 60_exceptions.md R237). -/

namespace Sys2Proof

variable {v w : Word} {op : Nibble} {k : Nat} {i : Instr}

/-! ### Words by their fields (R91) -/

/-- A word is its four fields, from bit 31 down. -/
theorem append_fields (v : Word) : rsv1Field v ++ instField v ++ rsv0Field v ++ opField v = v := by
  unfold rsv1Field instField rsv0Field opField
  rw [BitVec.extractLsb'_append_extractLsb'_eq_extractLsb' (show 12 = 8 + 4 from rfl),
    BitVec.extractLsb'_append_extractLsb'_eq_extractLsb' (show 8 = 4 + 4 from rfl),
    BitVec.extractLsb'_append_extractLsb'_eq_extractLsb' (show 4 = 0 + 4 from rfl)]
  exact BitVec.extractLsb'_eq_self

theorem word_eq_iff_fields :
    v = w ↔ opField v = opField w ∧ instField v = instField w ∧ rsv0Field v = rsv0Field w ∧ rsv1Field v = rsv1Field w := by
  refine ⟨by rintro rfl; simp, fun ⟨hop, hinst, hrsv0, hrsv1⟩ => ?_⟩
  rw [← append_fields v, ← append_fields w, hop, hinst, hrsv0, hrsv1]

/-- The match value of an opcode holds the opcode in OP and 0 in every other field (R96). -/
theorem fields_setWidth (op : Nibble) :
    opField (op.setWidth 32) = op ∧ instField (op.setWidth 32) = 0 ∧ rsv0Field (op.setWidth 32) = 0 ∧
      rsv1Field (op.setWidth 32) = 0 := by
  decide +revert

/-- The mask of an opcode that names a slot clears INST and keeps the other fields (R96). -/
theorem fields_and_instMask (v : Word) :
    opField (v &&& 0xFFFFF0FF) = opField v ∧ instField (v &&& 0xFFFFF0FF) = 0 ∧
      rsv0Field (v &&& 0xFFFFF0FF) = rsv0Field v ∧ rsv1Field (v &&& 0xFFFFF0FF) = rsv1Field v :=
  ⟨BitVec.extractLsb'_and.trans BitVec.and_allOnes, BitVec.extractLsb'_and.trans BitVec.and_zero,
    BitVec.extractLsb'_and.trans BitVec.and_allOnes, BitVec.extractLsb'_and.trans BitVec.and_allOnes⟩

/-! ### Opcodes (R94, R95) -/

/-- The opcodes whose word names a slot (R95). -/
abbrev isInstanceOp (op : Nibble) : Prop := 1 ≤ op.toNat ∧ op.toNat ≤ 9

theorem slot?_eq_none_iff_of_instrOf (h : instrOf op k = some i) : i.slot? = none ↔ ¬ isInstanceOp op := by
  unfold instrOf at h
  split at h <;> cases h <;> simp [Instr.slot?, isInstanceOp, *]

/-- Every opcode but the two reserved ones names a command. -/
theorem exists_instrOf_iff : (∃ i, instrOf op k = some i) ↔ op ≠ 0xE ∧ op ≠ 0xF := by
  have hslot : (instrOf op k).isSome = (instrOf op 0).isSome := by
    unfold instrOf
    split <;> rfl
  rw [← Option.isSome_iff_exists, hslot]
  clear hslot
  revert op
  decide

/-! ### The decoder (R97) -/

/-- The decoder accepts a word exactly when OP names a command, both reserved fields are 0, and INST is 0 unless the opcode
names a slot. -/
theorem decode_eq_ok_iff : decode v = .ok i ↔
    instrOf (opField v) (instField v).toNat = some i ∧ rsv0Field v = 0 ∧ rsv1Field v = 0 ∧
      (isInstanceOp (opField v) ∨ instField v = 0) := by
  unfold decode
  cases h : instrOf (opField v) (instField v).toNat with
  | none => simp
  | some j =>
    simp only [slot?_eq_none_iff_of_instrOf h]
    split_ifs <;> simp only [false_iff, Except.ok.injEq, Option.some.injEq] <;> tauto

theorem exists_decode_eq_ok_iff : (∃ i, decode v = .ok i) ↔
    (opField v ≠ 0xE ∧ opField v ≠ 0xF) ∧ rsv0Field v = 0 ∧ rsv1Field v = 0 ∧
      (isInstanceOp (opField v) ∨ instField v = 0) := by
  simp only [decode_eq_ok_iff, exists_and_right, exists_instrOf_iff]

theorem exists_decode_eq_error_iff : (∃ e, decode v = .error e) ↔ ¬ ∃ i, decode v = .ok i := by
  cases decode v <;> simp

/-- The opcodes of commands that name no slot, listed (R95). -/
theorem mem_noInstanceOps_iff (op : Nibble) :
    op ∈ ([0x0, 0xA, 0xB, 0xC, 0xD] : List Nibble) ↔ (op ≠ 0xE ∧ op ≠ 0xF) ∧ ¬ isInstanceOp op := by
  decide +revert

/-- The four conditions of R97 are together the negation of the decoder's condition. -/
theorem illegal_iff :
    ((opField v = 0xE ∨ opField v = 0xF) ∨ rsv0Field v ≠ 0 ∨ rsv1Field v ≠ 0 ∨
      (opField v ∈ ([0x0, 0xA, 0xB, 0xC, 0xD] : List Nibble) ∧ instField v ≠ 0)) ↔ ¬ ∃ i, decode v = .ok i := by
  rw [exists_decode_eq_ok_iff, mem_noInstanceOps_iff]
  tauto

/-! ### Mask and match (R96) -/

/-- The mask and match condition of an opcode: one that names a slot ignores INST, any other compares the whole word. -/
def matchesOpcode (v : Word) (op : Nibble) : Prop :=
  if isInstanceOp op then v &&& 0xFFFFF0FF = op.setWidth 32 else v = op.setWidth 32

theorem matchesOpcode_iff : matchesOpcode v op ↔
    opField v = op ∧ rsv0Field v = 0 ∧ rsv1Field v = 0 ∧ (isInstanceOp op ∨ instField v = 0) := by
  obtain ⟨hop, hinst, hrsv0, hrsv1⟩ := fields_setWidth op
  obtain ⟨hop', hinst', hrsv0', hrsv1'⟩ := fields_and_instMask v
  unfold matchesOpcode
  split_ifs with h <;> rw [word_eq_iff_fields, hop, hinst, hrsv0, hrsv1]
  · rw [hop', hinst', hrsv0', hrsv1']
    tauto
  · tauto

/-- The command the decoder answers is that of the opcode whose mask and match condition the word meets. -/
theorem decode_eq_ok_iff_matchesOpcode : decode v = .ok i ↔
    ∃ op, instrOf op (instField v).toNat = some i ∧ matchesOpcode v op := by
  simp [decode_eq_ok_iff, matchesOpcode_iff]

/-- The fourteen rows hold the match value and the mask of their opcode. -/
theorem opcodeTable_values : ∀ r ∈ opcodeTable,
    r.value = r.opcode.setWidth 32 ∧ r.mask = if isInstanceOp r.opcode then 0xFFFFF0FF else 0xFFFFFFFF := by
  decide

/-- The table has a row for every opcode but the two reserved ones. -/
theorem exists_mem_opcodeTable_iff (op : Nibble) : (∃ r ∈ opcodeTable, r.opcode = op) ↔ op ≠ 0xE ∧ op ≠ 0xF := by
  decide +revert

theorem selects_iff_matchesOpcode {r : TableRow} (h : r ∈ opcodeTable) : r.selects v = true ↔ matchesOpcode v r.opcode := by
  obtain ⟨hvalue, hmask⟩ := opcodeTable_values r h
  rw [TableRow.selects, beq_iff_eq, hvalue, hmask, matchesOpcode]
  split_ifs
  · rfl
  · rw [show v &&& 0xFFFFFFFF = v from BitVec.and_allOnes]

/-- A row selects the word exactly when the decoder accepts it. -/
theorem exists_selects_iff : (∃ r ∈ opcodeTable, r.selects v = true) ↔ ∃ i, decode v = .ok i := by
  calc (∃ r ∈ opcodeTable, r.selects v = true)
    _ ↔ ∃ r ∈ opcodeTable, matchesOpcode v r.opcode :=
      exists_congr fun _ => and_congr_right selects_iff_matchesOpcode
    _ ↔ ∃ op, (∃ r ∈ opcodeTable, r.opcode = op) ∧ matchesOpcode v op := by simp
    _ ↔ ∃ op, (∃ i, instrOf op (instField v).toNat = some i) ∧ matchesOpcode v op := by
      simp only [exists_mem_opcodeTable_iff, exists_instrOf_iff]
    _ ↔ ∃ i, decode v = .ok i := by
      simp only [decode_eq_ok_iff_matchesOpcode, ← exists_and_right]
      exact exists_comm

/-- Settles O3: the mask and match condition of an opcode is the decoder's condition on the four fields, and the rows hold that
condition's values (R96). -/
theorem decoderSelectsByMaskAndMatch : Obligations.DecoderSelectsByMaskAndMatch := by
  refine ⟨fun v i => decode_eq_ok_iff_matchesOpcode, fun v => ?_, opcodeTable_values⟩
  simp [exists_decode_eq_error_iff, ← exists_selects_iff]

end Sys2Proof

namespace Sys2Proof.Machine

/-- Settles O4: of the two ways a word completes, the listed conditions say that it is the decoder's error (R97, R237). -/
theorem illegalWordsCompleteWithIllegalCmd : Obligations.IllegalWordsCompleteWithIllegalCmd := by
  intro v s
  rcases execute_cases v s with ⟨e, he, g⟩ | ⟨i, hi, g⟩
  · exact ⟨fun _ => g, fun h => absurd (illegal_iff.mpr (exists_decode_eq_error_iff.mp ⟨e, he⟩)) h⟩
  · exact ⟨fun h => absurd ⟨i, hi⟩ (illegal_iff.mp h), fun _ => ⟨i, hi, g⟩⟩

/-- Settles O5: the words are decoded one by one; slot 4 does not exist when NUM_INST is 4 (R99, R238). -/
theorem specExampleWordsDecode : Obligations.SpecExampleWordsDecode := by
  simp only [Obligations.SpecExampleWordsDecode, ← and_assoc]
  refine ⟨by decide, fun s h => ?_⟩
  rw [exec, execProcess, State.onSlot_of_ge h.le]
  rfl

end Sys2Proof.Machine
end

section
/-! PROOFS. The word of a command, field by field, and which words a completed command recorded (30_encoding.md R91, R94,
R97). -/

namespace Sys2Proof

variable {v : Word} {op : Nibble} {k : Nat} {i : Instr}

/-! ### The fields of an encoding (R91) -/

theorem commandWord_fields (op inst : Nibble) :
    opField (commandWord op inst) = op ∧ instField (commandWord op inst) = inst ∧ rsv0Field (commandWord op inst) = 0 ∧
      rsv1Field (commandWord op inst) = 0 := by
  simp (disch := decide) only [opField, instField, rsv0Field, rsv1Field, commandWord, Nat.reduceSub,
    BitVec.extractLsb'_append_eq_of_le, BitVec.extractLsb'_append_eq_right, BitVec.extractLsb'_eq_self, and_self]

@[simp] theorem opField_encode (i : Instr) : opField (encode i) = i.opcode := (commandWord_fields _ _).1

@[simp] theorem instField_encode (i : Instr) : instField (encode i) = i.instBits := (commandWord_fields _ _).2.1

/-! ### The command of a word's opcode and slot number (R93, R94) -/

theorem opcode_of_instrOf (h : instrOf op k = some i) : i.opcode = op := by
  unfold instrOf at h
  split at h <;> cases h <;> exact BitVec.eq_of_toNat_eq (Eq.symm ‹_›)

theorem slot?_of_instrOf (h : instrOf op k = some i) (hop : isInstanceOp op) : i.slot? = some k := by
  unfold instrOf at h
  split at h <;> cases h <;> simp [isInstanceOp, *] at hop <;> rfl

/-- The INST field of the command is the one it was decoded from, if that is 0 where the opcode names no slot (R95). -/
theorem instBits_of_instrOf {inst : Nibble} (h : instrOf op inst.toNat = some i) (hinst : isInstanceOp op ∨ inst = 0) :
    i.instBits = inst := by
  by_cases hop : isInstanceOp op
  · simp [Instr.instBits, slot?_of_instrOf h hop]
  · simp [Instr.instBits, (slot?_eq_none_iff_of_instrOf h).mpr hop, hinst.resolve_left hop]

/-- No bit of a word the decoder accepts is ignored (R92). -/
theorem encode_of_decode (h : decode v = .ok i) : encode i = v := by
  obtain ⟨hi, hrsv0, hrsv1, hinst⟩ := decode_eq_ok_iff.mp h
  obtain ⟨eop, einst, ersv0, ersv1⟩ := commandWord_fields i.opcode i.instBits
  exact word_eq_iff_fields.mpr ⟨eop.trans (opcode_of_instrOf hi), einst.trans (instBits_of_instrOf hi hinst),
    ersv0.trans hrsv0.symm, ersv1.trans hrsv1.symm⟩

theorem opcode_of_decode (h : decode v = .ok i) : i.opcode = opField v := opcode_of_instrOf (decode_eq_ok_iff.mp h).1

/-- A command that names a slot names the one in INST (R93, R95). -/
theorem slot_of_decode (h : decode v = .ok i) (hk : i.slot? = some k) : (instField v).toNat = k := by
  obtain ⟨hi, -⟩ := decode_eq_ok_iff.mp h
  have hop : isInstanceOp (opField v) := by
    by_contra hop
    simp [(slot?_eq_none_iff_of_instrOf hi).mpr hop] at hk
  exact Option.some.inj ((slot?_of_instrOf hi hop).symm.trans hk)

end Sys2Proof
end

section
/-! PROOFS. What a command and a command word do, opcode by opcode, and the checks made before a command's own
(40_command_engine.md R116 to R123; 60_exceptions.md R237, R238). -/

namespace Sys2Proof.Machine

variable {s t : State} {v : Word} {i : Instr}

/-! ### The checks before a command's own (R118) -/

/-- The slot check comes first in every command that names a slot (R238). -/
theorem exec_of_badInst {k : Nat} (hs : i.slot? = some k) (hk : s.params.numInst ≤ k) :
    exec i s = .next (s.complete (encode i) .badInst) := by
  cases i <;> cases hs <;> exact congrArg _ (State.onSlot_of_ge hk)

theorem execute_of_illegal (h : ¬ ∃ i, decode v = .ok i) (s : State) :
    ∃ t, execute v s = .next t ∧ t.code = .illegalCmd := by
  rcases execute_cases v s with ⟨-, -, g⟩ | ⟨i, hi, -⟩
  · exact ⟨_, g, rfl⟩
  · exact absurd ⟨i, hi⟩ h

theorem execute_of_decode (h : decode v = .ok i) (s : State) : execute v s = exec i s := by rw [execute, h]

/-- A command that names no slot has one word (R96, R97). -/
theorem rejectsOtherBits_of_not_isInstanceOp {op : Nibble} (hop : ¬ isInstanceOp op) : rejectsOtherBits op := by
  intro v s hv hne
  refine execute_of_illegal (fun hi => hne ?_) s
  obtain ⟨-, hrsv0, hrsv1, hinst⟩ := exists_decode_eq_ok_iff.mp hi
  obtain ⟨eop, einst, ersv0, ersv1⟩ := fields_setWidth op
  exact word_eq_iff_fields.mpr ⟨hv.trans eop.symm, (hinst.resolve_left fun h => hop (hv ▸ h)).trans einst.symm,
    hrsv0.trans ersv0.symm, hrsv1.trans ersv1.symm⟩

theorem checkedFirst_of_slot? {op : Nibble} {cmd : Nat → Instr} (hcmd : ∀ k, (cmd k).slot? = some k) :
    checkedFirst op cmd := by
  refine ⟨fun v s _ hrsv => execute_of_illegal (fun hi => ?_) s, fun s k hk => ⟨_, exec_of_badInst (hcmd k) hk, rfl⟩⟩
  obtain ⟨-, hrsv0, hrsv1, -⟩ := exists_decode_eq_ok_iff.mp hi
  exact hrsv.elim (absurd hrsv0) (absurd hrsv1)

/-! ### What a command does (R116) -/

/-- STATUS after a command: its code, its opcode and its slot number (R34, R116). -/
theorem State.complete_encode (s : State) (i : Instr) (c : Code) :
    s.complete (encode i) c = { s with code := c, lastOp := i.opcode, lastInst := i.instBits, pend := none } := by
  rw [State.complete, opField_encode, instField_encode]

theorem exec_release_of_lt {k : Nat} (hk : k < s.params.numInst) :
    exec (.release k) s = .next ((s.setSlot k (s.slot k).unbind).complete (encode (.release k)) .ok) :=
  congrArg _ (State.onSlot_of_lt hk)

/-- The direct-form constructions (R131). -/
theorem exec_stub (hop : i.opcode ∈ ([0x4, 0x5, 0x6, 0x7] : List Nibble)) {k : Nat} (hs : i.slot? = some k)
    (hk : k < s.params.numInst) : exec i s = .next (s.complete (encode i) .notImplemented) := by
  cases i with
  | initIirDf | initIirLp | initIirBp | initIirBs => cases hs; exact congrArg _ (State.onSlot_of_lt hk)
  | _ => simp [Instr.opcode] at hop

/-- The four ways the command word `v` of opcode `op` on slot `k` can complete without ILLEGAL_CMD, with the opcodes and codes
of each: STATUS alone changes; the scaler's result; a construction or a release; the step of a bound slot. -/
def completes (v : Word) (op : Nibble) (k : Nat) (s t : State) : Prop :=
  (∃ c, c ≠ .illegalCmd ∧ t = s.complete v c) ∨
  (op ∈ ([0xA, 0xB, 0xC, 0xD] : List Nibble) ∧ ∃ y, t = s.completeScaler v y) ∨
  (op ∈ ([0x1, 0x2, 0x3, 0x9] : List Nibble) ∧ ∃ sl, ∃ c ∈ [Code.ok, .invalidParam], t = (s.setSlot k sl).complete v c) ∨
  (op = 0x8 ∧ ∃ r, s.kindStep k = some r ∧ t = s.finishProcess v k r)

theorem completes_onSlot {op : Nibble} {k : Nat} {body : State → State}
    (hbody : k < s.params.numInst → completes v op k s (body s)) : completes v op k s (s.onSlot v k body) := by
  rcases Nat.lt_or_ge k s.params.numInst with hk | hk
  · rw [State.onSlot_of_lt hk]; exact hbody hk
  · rw [State.onSlot_of_ge hk]; exact .inl ⟨.badInst, by decide, rfl⟩

theorem completes_init {op : Nibble} (hop : op ∈ ([0x1, 0x2, 0x3, 0x9] : List Nibble)) (k : Nat) (legal : Bool) (kind : Kind)
    (count base thr : Nat) :
    completes v op k s (s.onSlot v k fun s => s.constructIf v k legal kind count base thr) := by
  refine completes_onSlot fun _ => .inr (.inr (.inl ⟨hop, ?_⟩))
  rcases State.constructIf_cases s v k legal kind count base thr with ⟨-, e⟩ | ⟨-, e⟩
  · exact ⟨_, .ok, by decide, e⟩
  · exact ⟨_, .invalidParam, by decide, e⟩

theorem completes_stub (op : Nibble) (k : Nat) : completes v op k s (s.stub v k) :=
  completes_onSlot fun _ => .inl ⟨.notImplemented, by decide, rfl⟩

theorem exec_completes {k : Nat} (hk : ∀ j, i.slot? = some j → j = k) (h : exec i s = .next t) :
    completes (encode i) i.opcode k s t := by
  cases i with
  | nop => cases h; exact .inl ⟨.ok, by decide, rfl⟩
  | initMa j | initFir j | initBq j => cases h; cases hk j rfl; exact completes_init (by simp [Instr.opcode]) _ _ _ _ _ _
  | initIirDf j | initIirLp j | initIirBp j | initIirBs j => cases h; cases hk j rfl; exact completes_stub _ _
  | process j =>
    cases h
    cases hk j rfl
    refine completes_onSlot fun _ => ?_
    split
    · exact .inl ⟨.notBound, by decide, rfl⟩
    · next r hr => exact .inr (.inr (.inr ⟨rfl, r, hr, rfl⟩))
  | release j =>
    cases h
    cases hk j rfl
    exact completes_onSlot fun _ => .inr (.inr (.inl ⟨by simp [Instr.opcode], _, .ok, by decide, rfl⟩))
  | fxTofix | fxFromfix | fxMul | fxNarrow => cases h; exact .inr (.inl ⟨by decide, _, rfl⟩)

/-- What a command word does, from its bits: it is illegal, or completes in one of the ways of its opcode on the slot in
INST. -/
theorem execute_completes (h : execute v s = .next t) :
    t = s.completeIllegal v ∨ completes v (opField v) (instField v).toNat s t := by
  rcases execute_cases v s with ⟨-, -, g⟩ | ⟨i, hi, g⟩ <;> rw [g] at h
  · cases h; exact .inl rfl
  · have hc := exec_completes (fun j hj => (slot_of_decode hi hj).symm) h
    rw [encode_of_decode hi, opcode_of_decode hi] at hc
    exact .inr hc

/-! ### The statements about one command -/

/-- Settles O28: NOP is the completion alone, and its opcode names no slot (R97, R117). -/
theorem nopOnlyCompletes : Obligations.NopOnlyCompletes :=
  ⟨fun s => congrArg Host.Outcome.next (s.complete_encode .nop .ok), rejectsOtherBits_of_not_isInstanceOp (by decide)⟩

/-- Settles O29: after the slot check a stub is the completion alone (R131). -/
theorem directFormStubsReportNotImplemented : Obligations.DirectFormStubsReportNotImplemented := by
  intro io hio
  have hcmd : ∀ k, (io.1 k).opcode = io.2 ∧ (io.1 k).slot? = some k := by
    intro k
    fin_cases hio <;> exact ⟨rfl, rfl⟩
  refine ⟨fun s k hk => ?_, checkedFirst_of_slot? fun k => (hcmd k).2⟩
  obtain ⟨hop, hs⟩ := hcmd k
  have hstub : (io.1 k).opcode ∈ ([0x4, 0x5, 0x6, 0x7] : List Nibble) := by
    rw [hop]
    fin_cases hio <;> decide
  rw [exec_stub hstub hs hk, State.complete_encode, Instr.instBits, hs, hop]

/-- Settles O31: after the slot check RELEASE writes the unbound slot and completes (R123). -/
theorem releaseUnbindsTheSlot : Obligations.ReleaseUnbindsTheSlot := by
  refine ⟨fun s k hk => ?_, checkedFirst_of_slot? fun _ => rfl⟩
  rw [exec_release_of_lt hk, State.complete_encode]
  rfl

/-! ### The statements about every command word -/

/-- A state in which slot 0 is bound and its count register is 0, which INIT_MA rejects (R235). -/
def boundWithCountZero : State := { State.reset with slots := [{ Slot.absent with kind := .ma }] }

/-- Settles O33: of the ways a word completes, those that change more than STATUS and ERR.ILLEGAL report OK, INVALID_OUTPUT
or INVALID_PARAM (R128). -/
theorem errorCompletionsChangeOnlyStatus : Obligations.ErrorCompletionsChangeOnlyStatus := by
  refine ⟨fun v s t h hcode => ?_, boundWithCountZero, _, rfl, rfl, by decide⟩
  rcases execute_completes h with rfl | ⟨c, hc, rfl⟩ | ⟨-, y, rfl⟩ | ⟨-, sl, c, hc, rfl⟩ | ⟨-, r, -, rfl⟩
  · simp [State.completeIllegal, State.flagIllegal, State.complete, opField, instField]
  · simp [State.complete, opField, instField, beq_false_of_ne hc]
  · simp [State.completeScaler] at hcode
  · fin_cases hc <;> simp at hcode
  · cases hv : r.valid <;> simp [State.finishProcess, Code.ofValid, hv] at hcode

/-- The registers no command word writes, and those its completion does (R34, R116, R250). -/
theorem execute_registers (h : execute v s = .next t) :
    t.lastOp = opField v ∧ t.lastInst = instField v ∧ t.opa = s.opa ∧ t.opb = s.opb ∧ t.instRegs = s.instRegs ∧
      t.epoch = s.epoch := by
  rcases execute_completes h with rfl | ⟨c, -, rfl⟩ | ⟨-, y, rfl⟩ | ⟨-, sl, c, -, rfl⟩ | ⟨-, r, -, rfl⟩ <;>
    exact ⟨rfl, rfl, rfl, rfl, rfl, rfl⟩

theorem execute_result (h : execute v s = .next t) (hop : opField v ∉ ([0x8, 0xA, 0xB, 0xC, 0xD] : List Nibble)) :
    t.result = s.result := by
  rcases execute_completes h with rfl | ⟨c, -, rfl⟩ | ⟨hfx, -⟩ | ⟨-, sl, c, -, rfl⟩ | ⟨hproc, -⟩
  · rfl
  · rfl
  · exact absurd (List.mem_cons_of_mem _ hfx) hop
  · rfl
  · simp [hproc] at hop

/-- A command word writes slots only in an INIT_MA, INIT_FIR, INIT_BQ, PROCESS or RELEASE, and only the slot in INST
(R126). -/
theorem execute_slots (h : execute v s = .next t) :
    t.slots = s.slots ∨ opField v ∈ ([0x1, 0x2, 0x3, 0x8, 0x9] : List Nibble) ∧
      ∃ sl, t.slots = s.slots.set (instField v).toNat sl := by
  rcases execute_completes h with rfl | ⟨c, -, rfl⟩ | ⟨-, y, rfl⟩ | ⟨hop, sl, c, -, rfl⟩ | ⟨hop, r, -, rfl⟩
  · exact .inl rfl
  · exact .inl rfl
  · exact .inl rfl
  · exact .inr ⟨List.subset_def.mp (by decide) hop, sl, rfl⟩
  · exact .inr ⟨by simp [hop], r.slot, rfl⟩

theorem execute_slot_ne (h : execute v s = .next t) {j : Nat} (hj : j ≠ (instField v).toNat) : t.slot j = s.slot j := by
  rcases execute_slots h with e | ⟨-, sl, e⟩
  · exact State.slot_congr e j
  · exact (State.slot_congr (s := s.setSlot _ sl) e j).trans (State.slot_setSlot_ne s sl hj)

/-- Settles O34: each clause is the frame of one part of the state (R116, R126). -/
theorem everyCommandKeepsItsFrame : Obligations.EveryCommandKeepsItsFrame := by
  intro v s t h
  obtain ⟨hlastOp, hlastInst, hopa, hopb, hregs, hepoch⟩ := execute_registers h
  obtain ⟨hpend, hrst, hhost, hsched, hreads⟩ := execute_outside h
  have herr : t.err.busyWr = s.err.busyWr ∧ t.err.bus = s.err.bus := by
    rcases execute_err h with e | e <;> rw [e] <;> exact ⟨rfl, rfl⟩
  refine ⟨hlastOp, hlastInst, hpend, execute_params h, hrst, hopa, hopb, hregs, hepoch, hhost, hsched, hreads, herr.1, herr.2,
    execute_byteAt h, execute_result h, fun hop => ?_, fun j hj => execute_slot_ne h hj⟩
  exact (execute_slots h).resolve_right fun ⟨hslots, _⟩ => hop hslots

/-! ### What binds a slot -/

/-- What a construction fixes and a step keeps: the kind, the count, the base and the threshold (R125, R127). -/
def Slot.sameBinding (a b : Slot) : Prop := a.kind = b.kind ∧ a.n = b.n ∧ a.cbase = b.cbase ∧ a.thr = b.thr

theorem Slot.sameBinding_refl (sl : Slot) : sl.sameBinding sl := ⟨rfl, rfl, rfl, rfl⟩

theorem kindStep_sameBinding {k : Nat} {r : StepResult} (h : s.kindStep k = some r) : r.slot.sameBinding (s.slot k) := by
  unfold State.kindStep at h
  split at h <;> cases h <;> exact ⟨rfl, rfl, rfl, rfl⟩

/-- A command word changes the binding of no slot but that in INST, and only by a construction or a release (R127). -/
theorem execute_binding (h : execute v s = .next t) (k : Nat) : (t.slot k).sameBinding (s.slot k) ∨
    opField v ∈ ([0x1, 0x2, 0x3, 0x9] : List Nibble) ∧ (instField v).toNat = k := by
  by_cases hk : k = (instField v).toNat
  · subst hk
    rcases execute_completes h with rfl | ⟨c, -, rfl⟩ | ⟨-, y, rfl⟩ | ⟨hop, -⟩ | ⟨-, r, hr, rfl⟩
    · exact .inl (Slot.sameBinding_refl _)
    · exact .inl (Slot.sameBinding_refl _)
    · exact .inl (Slot.sameBinding_refl _)
    · exact .inr ⟨hop, rfl⟩
    · left
      rw [State.finishProcess, State.slot_complete, State.slot_setResult, State.slot_setSlot]
      split_ifs
      · exact kindStep_sameBinding hr
      · exact Slot.sameBinding_refl _
  · exact .inl (execute_slot_ne h hk ▸ Slot.sameBinding_refl _)

/-- Settles O36: a word that changes a slot's kind or binding is no step and no other slot's command (R127). -/
theorem onlyConstructionAndReleaseRebind : Obligations.OnlyConstructionAndReleaseRebind := by
  intro v s t k h hchanged
  refine (execute_binding h k).resolve_left fun ⟨hkind, hn, hcbase, hthr⟩ => ?_
  exact hchanged.elim (absurd hkind) (·.elim (absurd hn) (·.elim (absurd hcbase) (absurd hthr)))

end Sys2Proof.Machine
end

section
/-! PROOFS. STATUS and CMD at the host port, and the engine's turn (10_state.md R30, R33, R34; 40_command_engine.md R112 to
R118). -/

namespace Sys2Proof.Machine

/-- The fields of STATUS: BUSY, three zeros, CODE, LAST_OP, LAST_INST, sixteen zeros (R34). -/
theorem State.statusWord_fields (s : State) :
    s.statusWord.getLsbD 0 = s.pend.isSome ∧ s.statusWord.extractLsb' 1 3 = 0 ∧
      s.statusWord.extractLsb' 4 4 = s.code.number ∧ s.statusWord.extractLsb' 8 4 = s.lastOp ∧
      s.statusWord.extractLsb' 12 4 = s.lastInst ∧ s.statusWord.extractLsb' 16 16 = 0 := by
  unfold State.statusWord
  constructor
  · rw [BitVec.getLsbD_append]
    simp [bit, State.busy]
  · simp (disch := decide) only [Nat.reduceSub, BitVec.extractLsb'_append_eq_of_le, BitVec.extractLsb'_append_eq_right,
      BitVec.extractLsb'_eq_self, and_self]

theorem State.busRead_status (s : State) : s.busRead 0x020 .word = s.statusWord :=
  State.busRead_of_addr (r := .status) trivial rfl

/-- Settles O24: the three addresses are those of RESULT, CMD and STATUS, and STATUS is its fields side by side (R30, R33,
R34). -/
theorem statusRegisterFields : Obligations.StatusRegisterFields := by
  intro s
  rw [State.busRead_status]
  exact ⟨State.busRead_of_addr (s := s) (r := .result) trivial rfl, State.busRead_of_addr (s := s) (r := .cmd) trivial rfl,
    s.statusWord_fields⟩

/-- Settles O6: the engine's turn executes the pending word, which its command is the meaning of (R114, R118). -/
theorem engineTurnRunsTheDecodedCommand : Obligations.EngineTurnRunsTheDecodedCommand := by
  intro s v i hturn hp hi
  rw [step_of_engine hturn, engineTurn_some (s := s.turnTaken) hp, execute_of_decode hi]
  rfl

/-- The host's turn with a write to perform, out of reset (R61). -/
theorem step_of_write {s : State} {a : Addr} {size : Size} {v : Word} {rest : List HostOp} (hturn : s.turn = .host)
    (hops : s.host = .write a size v :: rest) (hup : s.rstN = true) :
    step s = .next (State.busWrite { s with sched := s.sched.tail, host := rest } a size v) := by
  rw [step_of_host hturn, hostTurn_cons (s := s.turnTaken) hops]
  exact State.transaction_of_up hup

/-- Settles O7: the write is performed if nothing is pending, and otherwise it is not the bus that drops it (R113, R115). -/
theorem cmdWriteStartsTheCommand : Obligations.CmdWriteStartsTheCommand := by
  intro s v rest hturn hops hup s'
  refine ⟨fun hp => ⟨?_, ?_⟩, fun hp => ?_⟩
  · rw [step_of_write hturn hops hup]
    exact congrArg Host.Outcome.next (State.busWrite_of_addr (s := s') (r := .cmd) trivial rfl (by decide) (.inl hp) v)
  · rw [State.busRead_status]
    exact (State.statusWord_fields _).1
  · have hbus : s'.writeFate 0x010 .word ≠ .dropBus := by
      rw [Ne, State.writeFate_eq_dropBus_iff]
      intro h
      cases h rfl .cmd rfl
    rw [step_of_write hturn hops hup]
    exact congrArg Host.Outcome.next (State.busWrite_of_busy hbus hp (by decide) v)

end Sys2Proof.Machine
end

section
/-! PROOFS. What a PROCESS reads: the bound slot, the low bits of OPA and the coefficient words of the slot's region
(40_command_engine.md R124; 42_moving_average.md R170; 43_fir_filter.md R182; 44_iir_biquad_cascade.md R202). -/

namespace Sys2Proof.Machine

variable {p : Params} {c d : Nat → Int} {s t : State}

/-- An n-bit operand is read from the low n bits of its register (R19, R93). -/
theorem sext_congr {n : Nat} {v w : Word} (h : v.extractLsb' 0 n = w.extractLsb' 0 n) : sext n v = sext n w := by
  have hmod : v.toNat % 2 ^ n = w.toNat % 2 ^ n := by simpa [BitVec.extractLsb'_toNat] using congrArg BitVec.toNat h
  have hsext : ∀ u : Word, sext n u = Int.bmod ((u.toNat % 2 ^ n : Nat) : Int) (2 ^ n) := fun u => by
    rw [sext, wrap, Int.natCast_mod, Int.emod_bmod]
  rw [hsext, hsext, hmod]

/-! ### Coefficients read by a step -/

/-- Step m of the FIR sum reads taps 0 .. m (R182). -/
theorem firAcc_congr (hist : List Int) (x : Int) {m : Nat} (h : ∀ i ≤ m, c i = d i) :
    firAcc p c hist x m = firAcc p d hist x m := by
  induction m with
  | zero => rw [firAcc, firAcc, h 0 le_rfl]
  | succ m ih => rw [firAcc, firAcc, ih fun i hi => h i (by omega), h (m + 1) le_rfl]

/-- A FIR slot with at least one tap reads the N words from its base up. -/
theorem firStep_congr {sl : Slot} (x : Int) (hn : 1 ≤ sl.n.toNat)
    (h : ∀ i < sl.n.toNat, c (sl.cbase.toNat + i) = d (sl.cbase.toNat + i)) : firStep p c sl x = firStep p d sl x := by
  simp only [firStep, firAcc_congr sl.hist x fun i (hi : i ≤ sl.n.toNat - 1) => h i (by omega)]

/-- A section does not read a0, word 3 of its six (R202). -/
theorem sectionOut_congr (u d0 d1 : Int) (h : ∀ i < 6, i ≠ 3 → c i = d i) :
    sectionOut p c u d0 d1 = sectionOut p d u d0 d1 := by
  simp only [sectionOut, h 0 (by decide) (by decide), h 1 (by decide) (by decide), h 2 (by decide) (by decide),
    h 4 (by decide) (by decide), h 5 (by decide) (by decide)]

theorem runSection_congr (hu : List Int × Int) {k : Nat} (h : ∀ i < 6, i ≠ 3 → c (6 * k + i) = d (6 * k + i)) :
    runSection p c hu k = runSection p d hu k := by
  simp only [runSection, sectionOut_congr (c := fun i => c (6 * k + i)) _ _ _ h]

/-- Sections 0 .. m-1 read the first 6m words, every a0 excepted (R202). -/
theorem runSections_congr (hist : List Int) (x : Int) {m : Nat} (h : ∀ i < 6 * m, i % 6 ≠ 3 → c i = d i) :
    runSections p c hist x m = runSections p d hist x m := by
  induction m with
  | zero => rfl
  | succ m ih =>
    rw [runSections, runSections, ih fun i hi => h i (by omega)]
    exact runSection_congr _ fun i hi hi3 => h (6 * m + i) (by omega) (by omega)

theorem bqStep_congr {sl : Slot} (x : Int) (h : ∀ i < 6 * sl.n.toNat, i % 6 ≠ 3 →
    c (sl.cbase.toNat + i) = d (sl.cbase.toNat + i)) : bqStep p c sl x = bqStep p d sl x := by
  simp only [bqStep, runSections_congr (c := fun i => c (sl.cbase.toNat + i)) sl.hist x h]

/-! ### The step of a slot -/

/-- The step of a slot depends on no more than the parameters, the slot, the input Sample and, by kind, the coefficient words
named. -/
theorem kindStep_congr {k : Nat} (hs : s.Inv) (hk : k < s.params.numInst) (hparams : s.params = t.params)
    (hslot : s.slot k = t.slot k) (hx : s.sampleOperand = t.sampleOperand)
    (hfir : (s.slot k).kind = .fir → ∀ i < (s.slot k).n.toNat,
      s.coef ((s.slot k).cbase.toNat + i) = t.coef ((s.slot k).cbase.toNat + i))
    (hbq : (s.slot k).kind = .bq → ∀ i < 6 * (s.slot k).n.toNat, i % 6 ≠ 3 →
      s.coef ((s.slot k).cbase.toNat + i) = t.coef ((s.slot k).cbase.toNat + i)) : s.kindStep k = t.kindStep k := by
  unfold State.kindStep
  rw [← hparams, ← hslot, ← hx]
  cases hkind : (s.slot k).kind with
  | unbound | ma => rfl
  | fir =>
    have hn : 1 ≤ (s.slot k).n.toNat := ((Slot.kindInv_fir hkind).mp (hs.slot hk).kindInv).1
    exact congrArg some (firStep_congr _ hn (hfir hkind))
  | bq => exact congrArg some (bqStep_congr _ (hbq hkind))

/-- PROCESS of a bound slot ends its step (R121). -/
theorem exec_process_of_bound {k : Nat} (hk : k < s.params.numInst) (hb : (s.slot k).kind ≠ .unbound) :
    ∃ r, s.kindStep k = some r ∧ exec (.process k) s = .next (s.finishProcess (encode (.process k)) k r) := by
  obtain ⟨r, hr⟩ : ∃ r, s.kindStep k = some r := by
    unfold State.kindStep
    split
    · contradiction
    all_goals exact ⟨_, rfl⟩
  exact ⟨r, hr, by rw [exec, execProcess, State.onSlot_of_lt hk, hr]⟩

/-- What the end of a PROCESS leaves in RESULT, CODE and the slot (R121). -/
theorem State.finishProcess_fields (v : Word) {k : Nat} (r : StepResult) (hk : k < s.slots.length) :
    (s.finishProcess v k r).result = word32 r.y ∧ (s.finishProcess v k r).code = Code.ofValid r.valid ∧
      (s.finishProcess v k r).slot k = r.slot :=
  ⟨rfl, rfl, State.slot_setSlot_self r.slot hk⟩

/-- Settles O37: the two states take the same step, and the end of a PROCESS writes that step's results (R124). -/
theorem processReadsOnlyItsOwnSlotAndRegion : Obligations.ProcessReadsOnlyItsOwnSlotAndRegion := by
  intro s t s' t' k hs ht hk hparams hslot hb hopa hfir hbq es et
  have hx : s.sampleOperand = t.sampleOperand := by
    unfold State.sampleOperand
    rw [← hparams]
    exact sext_congr hopa
  have hkt : k < t.params.numInst := hparams ▸ hk
  obtain ⟨r, hr, gs⟩ := exec_process_of_bound hk hb
  obtain ⟨q, hq, gt⟩ := exec_process_of_bound hkt (hslot ▸ hb)
  obtain rfl : r = q := Option.some.inj (hr.symm.trans ((kindStep_congr hs hk hparams hslot hx hfir hbq).trans hq))
  cases gs.symm.trans es
  cases gt.symm.trans et
  obtain ⟨hres, hcode, hslot'⟩ := s.finishProcess_fields (encode (.process k)) r (hs.slotsLength ▸ hk)
  obtain ⟨hres', hcode', hslot''⟩ := t.finishProcess_fields (encode (.process k)) r (ht.slotsLength ▸ hkt)
  exact ⟨hres.trans hres'.symm, hcode.trans hcode'.symm, hslot'.trans hslot''.symm⟩

end Sys2Proof.Machine
end

section
/-! PROOFS. The scaler's four commands and the arithmetic of its primitives (41_fixed_point_scaler.md R141 to R149, R153,
R155, R156). -/

namespace Sys2Proof.Machine

/-! ### The width operators under products and at the top of the range (R19) -/

theorem wrap_mul_right (n : Nat) (a b : Int) : wrap n (a * wrap n b) = wrap n (a * b) := by simp [wrap]

/-- Wrapping to n bits keeps the low m of them. -/
theorem wrap_emod_of_le {m n : Nat} (h : m ≤ n) (v : Int) : wrap n v % 2 ^ m = v % 2 ^ m := by
  have hdvd : (2 : Int) ^ m ∣ 2 ^ n := pow_dvd_pow 2 h
  rw [← Int.emod_emod_of_dvd (wrap n v) hdvd, wrap_emod, Int.emod_emod_of_dvd v hdvd]

/-- 2^(N-1), the first integer above the N-bit range, wraps to the least N-bit integer. -/
theorem wrap_two_pow_pred {n : Nat} (hn : 0 < n) : wrap n (2 ^ (n - 1)) = -(2 ^ (n - 1)) := by
  have hfits : fits n (-(2 ^ (n - 1))) := ⟨le_rfl, by linarith [show (0 : Int) < 2 ^ (n - 1) by positivity]⟩
  have hsum : (2 : Int) ^ (n - 1) = -(2 ^ (n - 1)) + ((2 ^ n : Nat) : Int) := by
    obtain ⟨m, rfl⟩ : ∃ m, n = m + 1 := ⟨n - 1, by omega⟩
    push_cast [Nat.add_sub_cancel]
    ring
  calc wrap n (2 ^ (n - 1))
    _ = wrap n (-(2 ^ (n - 1)) + ((2 ^ n : Nat) : Int)) := by rw [← hsum]
    _ = wrap n (-(2 ^ (n - 1))) := Int.add_bmod_right _ _
    _ = -(2 ^ (n - 1)) := wrap_of_fits hn hfits

/-! ### The FX_* commands (R145 to R149) -/

/-- A scaler command writes RESULT and STATUS and nothing else (R145, R154). -/
theorem State.completeScaler_encode (s : State) (i : Instr) (r : Int) :
    s.completeScaler (encode i) r =
      { s with result := word32 r, code := .ok, lastOp := i.opcode, lastInst := i.instBits, pend := none } :=
  (s.setResult r).complete_encode i .ok

/-- Settles O38: `to_fixed` is the shift by F, wrapped, and the opcode names no slot (R141, R146). -/
theorem fxTofixResult : Obligations.FxTofixResult :=
  ⟨fun s => congrArg Host.Outcome.next (s.completeScaler_encode .fxTofix _),
    rejectsOtherBits_of_not_isInstanceOp (by decide)⟩

/-- Settles O39: `from_fixed` is the floor of the quotient by 2^F (R142, R147). -/
theorem fxFromfixResult : Obligations.FxFromfixResult := by
  refine ⟨fun s => ?_, rejectsOtherBits_of_not_isInstanceOp (by decide)⟩
  obtain ⟨hle, hlt⟩ := asr_floor s.operandA s.params.fracBits
  exact ⟨_, hle, hlt, congrArg Host.Outcome.next (s.completeScaler_encode .fxFromfix _)⟩

/-- Settles O40: `mulq` is the floor of the quotient of the wrapped product (R143, R148). -/
theorem fxMulResult : Obligations.FxMulResult := by
  refine ⟨fun s => ?_, rejectsOtherBits_of_not_isInstanceOp (by decide)⟩
  obtain ⟨hle, hlt⟩ := asr_floor (wrapA s.params (s.operandA * s.operandB)) s.params.fracBits
  exact ⟨_, hle, hlt, congrArg Host.Outcome.next (s.completeScaler_encode .fxMul _)⟩

/-- Narrowing operand A reads the low W bits of OPA, as W is at most A (R12, R144, R145). -/
theorem narrow_operandA_emod (s : State) :
    narrow s.params s.operandA % 2 ^ s.params.sampleBits = (s.opa.toNat : Int) % 2 ^ s.params.sampleBits := by
  have hle : s.params.sampleBits ≤ s.params.accBits := by have := s.params.accBits_ok; omega
  exact (wrap_emod _ _).trans (wrap_emod_of_le hle _)

/-- Settles O41: `narrow` gives a W-bit integer with the low W bits of OPA (R144, R149). -/
theorem fxNarrowResult : Obligations.FxNarrowResult := by
  refine ⟨fun s => ?_, rejectsOtherBits_of_not_isInstanceOp (by decide)⟩
  obtain ⟨hle, hlt⟩ := narrow_fits s.params s.operandA
  exact ⟨_, hle, hlt, narrow_operandA_emod s, congrArg Host.Outcome.next (s.completeScaler_encode .fxNarrow _)⟩

/-! ### Products with an integer in Q(F) scaling (R141 to R143) -/

/-- The product is commutative (R155). -/
theorem mulq_comm (p : Params) (c v : Int) : mulq p c v = mulq p v c := by rw [mulq, mulq, mul_comm]

/-- Multiplying by an integer in Q(F) scaling multiplies before the round trip through that scaling. -/
theorem mulq_toFixed (p : Params) (x n : Int) : mulq p x (toFixed p n) = fromFixed p (toFixed p (x * n)) := by
  simp only [mulq, toFixed, wrapA, shl, wrap_mul_right, mul_assoc]

/-- The top of the A-bit range is that of the integers with A - F bits, shifted by F. -/
theorem two_pow_mul_two_pow_fracBits (p : Params) :
    (2 : Int) ^ (p.accBits - 1 - p.fracBits) * 2 ^ p.fracBits = 2 ^ (p.accBits - 1) := by
  have hF : p.fracBits ≤ p.accBits - 1 := by
    have := p.accBits_ok
    unfold Params.fracBits
    omega
  rw [← pow_add, Nat.sub_add_cancel hF]

theorem fits_shl_fracBits (p : Params) {x : Int} (hl : -(2 ^ (p.accBits - 1 - p.fracBits)) ≤ x)
    (hu : x < 2 ^ (p.accBits - 1 - p.fracBits)) : fits p.accBits (shl x p.fracBits) := by
  have hpos : (0 : Int) < 2 ^ p.fracBits := by positivity
  rw [fits, shl, ← two_pow_mul_two_pow_fracBits, ← neg_mul]
  exact ⟨mul_le_mul_of_nonneg_right hl hpos.le, mul_lt_mul_of_pos_right hu hpos⟩

/-- The shift right by F undoes the shift left by F (R20). -/
theorem fromFixed_shl (p : Params) (x : Int) : fromFixed p (shl x p.fracBits) = x :=
  Int.mul_ediv_cancel x (by positivity)

/-- The round trip through Q(F) scaling is exact where the scaled integer fits A bits (R153). -/
theorem fromFixed_toFixed (p : Params) {x : Int} (hl : -(2 ^ (p.accBits - 1 - p.fracBits)) ≤ x)
    (hu : x < 2 ^ (p.accBits - 1 - p.fracBits)) : fromFixed p (toFixed p x) = x := by
  rw [toFixed, wrapA_of_fits p (fits_shl_fracBits p hl hu), fromFixed_shl]

/-- The first integer above that range wraps to the least one in it (R153, R156). -/
theorem fromFixed_toFixed_top (p : Params) :
    fromFixed p (toFixed p (2 ^ (p.accBits - 1 - p.fracBits))) = -(2 ^ (p.accBits - 1 - p.fracBits)) := by
  have hshl : shl (-(2 ^ (p.accBits - 1 - p.fracBits))) p.fracBits = -(2 ^ (p.accBits - 1)) := by
    rw [shl, neg_mul, two_pow_mul_two_pow_fracBits]
  rw [toFixed, shl, two_pow_mul_two_pow_fracBits, wrapA, wrap_two_pow_pred (accBits_pos p), ← hshl, fromFixed_shl]

/-- Settles O42: multiplying by 1 leaves the round trip through Q(F) scaling; 65536 is 2^(A-1-F) in CEF-CORE (R153). -/
theorem multiplyingByOneIsExact : Obligations.MultiplyingByOneIsExact := by
  constructor
  · intro p x hl hu
    rw [mulq_toFixed, mul_one]
    exact fromFixed_toFixed p hl (Int.lt_of_le_sub_one hu)
  · rw [mulq_toFixed, mul_one]
    exact fromFixed_toFixed_top Config.cef

/-- Settles O43: multiplying by -1 leaves the round trip of -v, which is out of range for the least v alone (R156). -/
theorem negationWrapsAtTheBottom : Obligations.NegationWrapsAtTheBottom := by
  intro p
  have hneg : ∀ v, mulq p (toFixed p (-1)) v = fromFixed p (toFixed p (-v)) := fun v => by
    rw [mulq_comm, mulq_toFixed, mul_neg_one]
  refine ⟨wrap_two_pow_pred (sampleBits_pos p), fun v hl hu => ?_, ?_⟩
  · rw [hneg]
    exact fromFixed_toFixed p (by omega) (by omega)
  · rw [hneg, neg_neg, fromFixed_toFixed_top]

end Sys2Proof.Machine
end

section
/-! PROOFS. Feeding a slot a sequence of samples: the rules of `State.feed1` and `State.feed` that every kind's statement about a
run of PROCESS commands uses (40_command_engine.md R121; 70_reset_and_hazards.md R265). -/

namespace Sys2Proof.Machine

variable {s t : State} {k : Nat}

/-- Writing OPA concerns no part of the invariant (R31). -/
theorem State.Inv.withOpa (h : s.Inv) (x : Word) : State.Inv { s with opa := x } :=
  h.of_frame rfl rfl rfl rfl h.resetIdle

theorem State.feed1_of_exec {x : Word} (h : exec (.process k) { s with opa := x } = .next t) : s.feed1 k x = t := by
  rw [State.feed1, h]

/-- Feeding is a PROCESS of the state with the word in OPA, and a PROCESS always completes (R121, R242). -/
theorem State.exec_feed1 (s : State) (k : Nat) (x : Word) :
    exec (.process k) { s with opa := x } = .next (s.feed1 k x) := by
  obtain ⟨t, h⟩ := exec_next (.process k) { s with opa := x }
  rw [h, State.feed1_of_exec h]

theorem State.feed1_params (s : State) (k : Nat) (x : Word) : (s.feed1 k x).params = s.params :=
  (exec_frame (s.exec_feed1 k x)).1

theorem State.Inv.feed1 (h : s.Inv) (k : Nat) (x : Word) : (s.feed1 k x).Inv := (h.withOpa x).exec (s.exec_feed1 k x)

@[simp] theorem State.feed_nil (s : State) (k : Nat) : s.feed k [] = s := rfl

theorem State.feed_concat (s : State) (k : Nat) (xs : List Word) (x : Word) :
    s.feed k (xs ++ [x]) = (s.feed k xs).feed1 k x := List.foldl_concat _ _ _ _

/-- A relation between the words fed so far and the state after them holds along a run if it holds before the first word and every
further word keeps it. -/
theorem State.feed_induction {P : List Word → State → Prop} (hnil : P [] s)
    (hconcat : ∀ xs x t, P xs t → P (xs ++ [x]) (t.feed1 k x)) (xs : List Word) : P xs (s.feed k xs) := by
  induction xs using List.reverseRecOn with
  | nil => exact hnil
  | append_singleton xs x ih => rw [State.feed_concat]; exact hconcat xs x _ ih

end Sys2Proof.Machine
end

section
/-! PROOFS. The moving_average_engine: its construction, its step, and a run of samples from a construction on
(42_moving_average.md R161 to R169). -/

namespace Sys2Proof.Machine

variable {p : Params} {sl : Slot} {s t : State} {k : Nat}

/-! ### Construction (R161) -/

theorem legalMa_iff {count : Nat} : legalMa p count = true ↔ count ≠ 0 ∧ count ≤ p.histCap := by simp [legalMa]

theorem exec_initMa_of_lt (hk : k < s.params.numInst) : exec (.initMa k) s =
    .next (s.constructIf (encode (.initMa k)) k (legalMa s.params (s.countOperand k)) .ma (s.countOperand k) 0 0) :=
  congrArg _ (State.onSlot_of_lt hk)

/-- Settles O44: after the slot check INIT_MA has the two outcomes of a construction, by its legality condition (R120, R161). -/
theorem initMaConstructsOrRejects : Obligations.InitMaConstructsOrRejects := by
  refine ⟨fun s k hk => ?_, checkedFirst_of_slot? fun _ => rfl⟩
  rw [exec_initMa_of_lt hk]
  refine ⟨fun hne hle => ?_, fun hbad => ?_⟩
  · have hlegal : legalMa s.params (s.countOperand k) = true :=
      legalMa_iff.mpr ⟨fun h0 => hne (BitVec.eq_of_toNat_eq h0), hle⟩
    rw [State.constructIf, if_pos hlegal, State.construct, State.complete_encode]
    simp [State.setSlot, Slot.constructed, State.countOperand, Instr.opcode, Instr.instBits, Instr.slot?]
  · have hillegal : ¬ legalMa s.params (s.countOperand k) = true := by
      rw [legalMa_iff]
      rintro ⟨hne, hle⟩
      exact hbad.elim (fun h0 => hne (congrArg BitVec.toNat h0)) (Nat.not_lt.mpr hle)
    rw [State.constructIf, if_neg hillegal, State.failConstruct, State.complete_encode]
    rfl

/-- An INIT_MA that reports OK has constructed the slot (R120). -/
theorem exec_initMa_ok (hk : k < s.params.numInst) (h : exec (.initMa k) s = .next t) (hcode : t.code = .ok) :
    t = (s.setSlot k (Slot.constructed s.params .ma (s.countOperand k) 0 0)).complete (encode (.initMa k)) .ok := by
  rw [exec_initMa_of_lt hk] at h
  cases h
  rcases State.constructIf_cases s (encode (.initMa k)) k (legalMa s.params (s.countOperand k)) .ma (s.countOperand k) 0 0 with
    ⟨-, e⟩ | ⟨-, e⟩
  · exact e
  · rw [e] at hcode
    cases hcode

/-! ### One step (R162) -/

/-- The output is the running sum after the step divided by the fill count after it (R162 step 4). -/
theorem maStep_y (p : Params) (sl : Slot) (x : Int) :
    (maStep p sl x).y = narrow p (tdiv (maStep p sl x).slot.sum (maStep p sl x).slot.cnt.toNat) := rfl

/-- The output is valid exactly when the window is full after the step (R162 step 5). -/
theorem maStep_valid (p : Params) (sl : Slot) (x : Int) :
    (maStep p sl x).valid = ((maStep p sl x).slot.cnt == (maStep p sl x).slot.n) := rfl

/-- The fill count rises to the window's size and stays there (R162 step 2). -/
theorem maStep_slot_cnt (x : Int) (h : sl.MaInv p) :
    (maStep p sl x).slot.cnt.toNat = min (sl.cnt.toNat + 1) sl.n.toNat := by
  obtain ⟨-, -, -, -, hcnt, -⟩ := h
  by_cases hf : sl.cnt = sl.n
  · rw [maStep_slot_of_full x hf, hf]
    omega
  · rw [maStep_slot_of_filling x hf]
    have hlt : sl.cnt.toNat < sl.n.toNat := lt_of_le_of_ne hcnt fun e => hf (BitVec.eq_of_toNat_eq e)
    have hnext : (sl.cnt + 1).toNat = sl.cnt.toNat + 1 := by
      have := sl.n.isLt
      exact BitVec.toNat_add_of_lt (show sl.cnt.toNat + 1 < 2 ^ 16 by omega)
    simp only [hnext]
    omega

theorem exec_process_of_ma (hk : k < s.params.numInst) (hkind : (s.slot k).kind = .ma) : exec (.process k) s =
    .next (s.finishProcess (encode (.process k)) k (maStep s.params (s.slot k) s.sampleOperand)) := by
  obtain ⟨r, hr, e⟩ := exec_process_of_bound hk (by simp [hkind])
  simp only [State.kindStep, hkind, Option.some.injEq] at hr
  rw [e, hr]

/-- The end of a PROCESS: RESULT, the slot and STATUS are written, and nothing else (R121). -/
theorem State.finishProcess_encode (s : State) (k : Nat) (r : StepResult) :
    s.finishProcess (encode (.process k)) k r = { s with
      slots := s.slots.set k r.slot, result := word32 r.y, code := Code.ofValid r.valid,
      lastOp := 0x8, lastInst := BitVec.ofNat 4 k, pend := none } :=
  State.complete_encode _ _ _

/-- Settles O45: PROCESS ends the MA step, whose running sum and fill count depend on whether the window is full (R121, R162). -/
theorem processOfMaSlotAveragesItsWindow : Obligations.ProcessOfMaSlotAveragesItsWindow := by
  intro s k hk hkind
  rw [exec_process_of_ma hk hkind, State.finishProcess_encode, maStep_y, maStep_valid]
  by_cases hf : (s.slot k).cnt = (s.slot k).n
  · simp only [maStep_slot_of_full _ hf, if_pos hf, Code.ofValid, beq_iff_eq]
    rfl
  · simp only [maStep_slot_of_filling _ hf, if_neg hf, Code.ofValid, beq_iff_eq]
    rfl

/-! ### Where a full window fits an Accumulator (R167) -/

/-- The sum of n-bit integers lies between as many least and as many greatest ones. -/
theorem sum_bounds_of_fits {n : Nat} {l : List Int} (h : ∀ w ∈ l, fits n w) :
    -(2 ^ (n - 1)) * (l.length : Int) ≤ l.sum ∧ l.sum ≤ (2 ^ (n - 1) - 1) * (l.length : Int) := by
  have hlow := l.card_nsmul_le_sum (-(2 ^ (n - 1))) fun w hw => (h w hw).1
  have hhigh := l.sum_le_card_nsmul (2 ^ (n - 1) - 1) fun w hw => Int.le_sub_one_of_lt (h w hw).2
  rw [nsmul_eq_mul, mul_comm] at hlow hhigh
  exact ⟨hlow, hhigh⟩

/-- The average of n-bit integers, rounded toward zero, is an n-bit integer. -/
theorem tdiv_sum_length_fits {n : Nat} {l : List Int} (hne : 0 < l.length) (h : ∀ w ∈ l, fits n w) :
    fits n (Int.tdiv l.sum l.length) := by
  obtain ⟨hlow, hhigh⟩ := sum_bounds_of_fits h
  have hpos : (0 : Int) < l.length := by exact_mod_cast hne
  have hlow' := Int.tdiv_le_tdiv hpos hlow
  have hhigh' := Int.tdiv_le_tdiv hpos hhigh
  rw [Int.mul_tdiv_cancel _ hpos.ne'] at hlow' hhigh'
  exact ⟨hlow', Int.lt_of_le_sub_one hhigh'⟩

/-- At most `cap` n-bit integers sum to an m-bit one where `cap` times the least one does. -/
theorem sum_fits {n m cap : Nat} {l : List Int} (hlen : l.length ≤ cap) (h : ∀ w ∈ l, fits n w)
    (hcap : (cap : Int) * 2 ^ (n - 1) < 2 ^ (m - 1)) : fits m l.sum := by
  obtain ⟨hlow, hhigh⟩ := sum_bounds_of_fits h
  have hpow : (0 : Int) < 2 ^ (n - 1) := by positivity
  have hlen' : (l.length : Int) * 2 ^ (n - 1) ≤ cap * 2 ^ (n - 1) :=
    mul_le_mul_of_nonneg_right (by exact_mod_cast hlen) hpow.le
  constructor <;> linarith [Int.natCast_nonneg l.length]

/-! ### The window (R163, R166, R167) -/

/-- The window of an MA slot: the words its fill count counts (R163). -/
def Slot.window (sl : Slot) : List Int := sl.hist.take sl.cnt.toNat

theorem Slot.MaInv.window_length (h : sl.MaInv p) (hlen : sl.hist.length = p.histCap) : sl.window.length = sl.cnt.toNat := by
  obtain ⟨-, hcap, -, -, hcnt, -⟩ := h
  rw [Slot.window, List.length_take]
  omega

theorem Slot.MaInv.window_fits (h : sl.MaInv p) : ∀ w ∈ sl.window, fits p.sampleBits w := by
  obtain ⟨-, -, -, -, hcnt, -, -, hwin, -⟩ := h
  exact fun w hw => hwin w (List.take_subset_take_left _ hcnt hw)

/-- A word of the window after a step is the input or a word of the window before it. -/
theorem mem_window_maStep {x w : Int} (h : sl.MaInv p) (hlen : sl.hist.length = p.histCap)
    (hw : w ∈ (maStep p sl x).slot.window) : w ∈ sl.window ∨ w = x := by
  rw [Slot.window, maStep_slot_cnt x h, maStep_slot_hist] at hw
  obtain ⟨-, hcap, -, -, hcnt, -, hfill, -⟩ := h
  rcases Nat.lt_or_ge sl.cnt.toNat sl.n.toNat with hlt | hge
  · rw [Nat.min_eq_left hlt, hfill hlt, List.take_add_one, List.take_set_of_le le_rfl,
      List.getElem?_set_self (by omega)] at hw
    simpa [Slot.window] using hw
  · rw [Nat.min_eq_right (by omega), List.take_set, ← Nat.le_antisymm hcnt hge] at hw
    exact List.mem_or_eq_of_mem_set hw

/-- Where a full window fits an Accumulator, the running sum is the sum of the window (R166, R167). -/
theorem Slot.MaInv.sum_eq (h : sl.MaInv p) (hlen : sl.hist.length = p.histCap)
    (hcap : (p.histCap : Int) * 2 ^ (p.sampleBits - 1) < 2 ^ (p.accBits - 1)) : sl.sum = sl.window.sum := by
  have hwin : sl.window.length ≤ p.histCap := hlen ▸ List.length_take_le' _ _
  have hfits : fits p.accBits sl.window.sum := sum_fits hwin h.window_fits hcap
  obtain ⟨-, -, -, -, -, -, -, -, hsum⟩ := h
  exact hsum.trans (wrapA_of_fits p hfits)

/-- There the output of a step is a Sample before it is narrowed (R165, R167). -/
theorem Slot.MaInv.average_fits (h : sl.MaInv p) (hlen : sl.hist.length = p.histCap)
    (hcap : (p.histCap : Int) * 2 ^ (p.sampleBits - 1) < 2 ^ (p.accBits - 1)) (hcnt : 1 ≤ sl.cnt.toNat) :
    fits p.sampleBits (Int.tdiv sl.sum sl.cnt.toNat) := by
  rw [h.sum_eq hlen hcap, ← h.window_length hlen]
  exact tdiv_sum_length_fits (h.window_length hlen ▸ hcnt) h.window_fits

theorem State.Inv.maInv (h : s.Inv) (hk : k < s.params.numInst) (hkind : (s.slot k).kind = .ma) :
    (s.slot k).MaInv s.params := (Slot.kindInv_ma hkind).mp (h.slot hk).kindInv

/-- Settles O46: the step keeps the invariant, under which the sum of the window and its average fit (R166, R167). -/
theorem maNeverWrapsWhenTheWindowFits : Obligations.MaNeverWrapsWhenTheWindowFits := by
  intro s t k hs hk hkind hcap h
  have hma := hs.maInv hk hkind
  have hlen := (hs.slot hk).histLength
  rw [exec_process_of_ma hk hkind] at h
  cases h
  obtain ⟨hresult, -, hslot⟩ := s.finishProcess_fields (encode (.process k)) (maStep s.params (s.slot k) s.sampleOperand)
    (hs.slotsLength ▸ hk)
  rw [hslot, hresult, maStep_y]
  have hma' := maStep_maInv (sampleOperand_fits s) hlen hma
  have hlen' := (maStep_inv (sampleOperand_fits s) hkind (hs.slot hk)).histLength
  have hcnt : 1 ≤ (maStep s.params (s.slot k) s.sampleOperand).slot.cnt.toNat := by
    have hn := hma.1
    rw [maStep_slot_cnt _ hma]
    omega
  have havg := hma'.average_fits hlen' hcap hcnt
  exact ⟨hma'.sum_eq hlen' hcap, hcnt, havg, congrArg word32 (narrow_of_fits _ havg)⟩

/-! ### A run of samples (R164, R169) -/

/-- Slot k of state t is the MA slot of window n that the samples xs, fed to it after its construction, leave: the fill count is
their number, up to n, the window holds no other samples, and the last one's output and validity are in RESULT and CODE. -/
structure MaFed (p : Params) (k : Nat) (n : Half) (xs : List Word) (t : State) : Prop where
  params : t.params = p
  inv : t.Inv
  kind : (t.slot k).kind = .ma
  size : (t.slot k).n = n
  count : (t.slot k).cnt.toNat = min xs.length n.toNat
  window : ∀ w ∈ (t.slot k).window, w ∈ xs.map (sampleOf p)
  result : xs ≠ [] → t.result = word32 (narrow p (tdiv (t.slot k).sum (t.slot k).cnt.toNat))
  code : xs ≠ [] → t.code = Code.ofValid ((t.slot k).cnt == (t.slot k).n)

theorem maFed_nil_of_initMa (hs : s.Inv) (hk : k < s.params.numInst) (h : exec (.initMa k) s = .next t) (hcode : t.code = .ok) :
    MaFed s.params k (s.instReg k).count [] t := by
  have hinv : t.Inv := hs.exec h
  obtain rfl := exec_initMa_ok hk h hcode
  have hslot := State.slot_setSlot_self (Slot.constructed s.params .ma (s.countOperand k) 0 0) (hs.slotsLength ▸ hk)
  refine ⟨rfl, hinv, ?_, ?_, ?_, ?_, fun hne => absurd rfl hne, fun hne => absurd rfl hne⟩ <;>
    rw [State.slot_complete, hslot]
  · rfl
  · simp [Slot.constructed, State.countOperand]
  · exact (Nat.zero_min _).symm
  · simp [Slot.window, Slot.constructed]

/-- What feeding a word to an MA slot leaves in RESULT, CODE and the slot (R121, R162). -/
theorem State.feed1_fields_of_ma (hs : s.Inv) (hk : k < s.params.numInst) (hkind : (s.slot k).kind = .ma) (x : Word) :
    let r := maStep s.params (s.slot k) (sampleOf s.params x)
    (s.feed1 k x).result = word32 r.y ∧ (s.feed1 k x).code = Code.ofValid r.valid ∧ (s.feed1 k x).slot k = r.slot := by
  rw [State.feed1_of_exec (exec_process_of_ma (s := { s with opa := x }) hk hkind)]
  exact State.finishProcess_fields (s := { s with opa := x }) _ _ (hs.slotsLength ▸ hk)

/-- One more sample (R162). -/
theorem MaFed.concat {n : Half} {xs : List Word} (hk : k < p.numInst) (x : Word) (h : MaFed p k n xs t) :
    MaFed p k n (xs ++ [x]) (t.feed1 k x) := by
  obtain ⟨rfl, hinv, hkind, hsize, hcount, hwindow, -, -⟩ := h
  have hma := hinv.maInv hk hkind
  obtain ⟨hresult, hcode, hslot⟩ := State.feed1_fields_of_ma hinv hk hkind x
  rw [maStep_y, ← hslot] at hresult
  rw [maStep_valid, ← hslot] at hcode
  refine ⟨State.feed1_params t k x, hinv.feed1 k x, hslot ▸ hkind, hslot ▸ hsize, ?_, ?_, fun _ => hresult,
    fun _ => hcode⟩
  · rw [hslot, maStep_slot_cnt _ hma, hcount, hsize, List.length_append, List.length_singleton]
    omega
  · intro w hw
    rw [hslot] at hw
    rw [List.map_append, List.mem_append]
    exact (mem_window_maStep hma (hinv.slot hk).histLength hw).imp (hwindow w) List.mem_singleton.mpr

theorem maFed_of_initMa (hs : s.Inv) (hk : k < s.params.numInst) (h : exec (.initMa k) s = .next t) (hcode : t.code = .ok)
    (xs : List Word) : MaFed s.params k (s.instReg k).count xs (t.feed k xs) :=
  State.feed_induction (maFed_nil_of_initMa hs hk h hcode) (fun _ x _ => MaFed.concat hk x) xs

@[simp] theorem Code.ofValid_eq_ok_iff (b : Bool) : Code.ofValid b = .ok ↔ b = true := by cases b <;> simp [Code.ofValid]

/-- The window is full exactly when at least as many samples as its size were fed (R164). -/
theorem MaFed.code_eq {n : Half} {xs : List Word} (h : MaFed p k n xs t) (hne : xs ≠ []) :
    t.code = if xs.length < n.toNat then .invalidOutput else .ok := by
  have hfull : (t.slot k).cnt = (t.slot k).n ↔ ¬ xs.length < n.toNat := by
    rw [← BitVec.toNat_inj, h.count, h.size]
    omega
  rw [h.code hne, Code.ofValid]
  simp only [beq_iff_eq, hfull, ite_not]

/-- Settles O47: after the samples the fill count is their number, up to the window's size (R164). -/
theorem maIsValidFromTheLastWindowFill : Obligations.MaIsValidFromTheLastWindowFill := by
  intro s s₁ k xs hs hk h hcode hne
  have hfed := maFed_of_initMa hs hk h hcode xs
  refine ⟨hfed.code_eq hne, ?_⟩
  rw [hfed.code hne, Code.ofValid_eq_ok_iff, beq_iff_eq]

/-- The average of a window that holds one Sample only is that Sample (R169). -/
theorem Slot.MaInv.average_of_const (h : sl.MaInv p) (hlen : sl.hist.length = p.histCap)
    (hcap : (p.histCap : Int) * 2 ^ (p.sampleBits - 1) < 2 ^ (p.accBits - 1)) (hcnt : 1 ≤ sl.cnt.toNat) {v : Int}
    (hv : ∀ w ∈ sl.window, w = v) : tdiv sl.sum sl.cnt.toNat = v := by
  rw [h.sum_eq hlen hcap, List.sum_eq_card_nsmul _ v hv, h.window_length hlen, nsmul_eq_mul]
  exact Int.mul_tdiv_cancel_left v (by omega)

/-- Settles O48: the window holds the constant alone, so that its sum is the constant times the fill count (R169). -/
theorem maOfConstantInputIsTheConstant : Obligations.MaOfConstantInputIsTheConstant := by
  intro s s₁ k n x hs hk hcap h hcode t
  have hne : List.replicate (n + 1) x ≠ [] := by simp
  have hfed : MaFed s.params k (s.instReg k).count (List.replicate (n + 1) x) t := maFed_of_initMa hs hk h hcode _
  have hkt : k < t.params.numInst := hfed.params ▸ hk
  have hma := hfed.inv.maInv hkt hfed.kind
  have hcnt : 1 ≤ (t.slot k).cnt.toNat := by
    have hn := hma.1
    rw [hfed.size] at hn
    rw [hfed.count, List.length_replicate]
    omega
  have hwin : ∀ w ∈ (t.slot k).window, w = sampleOf s.params x := fun w hw => by
    have hmem := hfed.window w hw
    rw [List.map_replicate] at hmem
    exact List.eq_of_mem_replicate hmem
  have havg := hma.average_of_const (hfed.inv.slot hkt).histLength (hfed.params ▸ hcap) hcnt hwin
  refine ⟨?_, ?_⟩
  · rw [hfed.result hne, havg]
    exact congrArg word32 (narrow_of_fits _ (sext_fits (sampleBits_pos _) x))
  · rw [hfed.code_eq hne, List.length_replicate]

end Sys2Proof.Machine
end

section
/-! PROOFS. The fir_filter: its construction, its step, and a run of samples from a construction on (43_fir_filter.md R181 to
R187). -/

namespace Sys2Proof.Machine

variable {p : Params} {s t : State} {k : Nat}

/-! ### Construction (R181) -/

theorem legalFir_iff {count base : Nat} :
    legalFir p count base = true ↔ count ≠ 0 ∧ count ≤ p.histCap ∧ base + count ≤ p.coefDepth := by
  simp [legalFir, and_assoc]

theorem State.countOperand_eq_zero_iff : s.countOperand k = 0 ↔ (s.instReg k).count = 0 :=
  BitVec.toNat_inj (y := (0 : Half))

theorem exec_initFir_of_lt (hk : k < s.params.numInst) : exec (.initFir k) s =
    .next (s.constructIf (encode (.initFir k)) k (legalFir s.params (s.countOperand k) (s.baseOperand k)) .fir
      (s.countOperand k) (s.baseOperand k) 0) :=
  congrArg _ (State.onSlot_of_lt hk)

/-- Settles O49: after the slot check INIT_FIR has the two outcomes of a construction, by its legality condition (R120, R181). -/
theorem initFirConstructsOrRejects : Obligations.InitFirConstructsOrRejects := by
  refine ⟨fun s k hk => ?_, checkedFirst_of_slot? fun _ => rfl⟩
  intro count base legal
  have hiff : legalFir s.params (s.countOperand k) (s.baseOperand k) = true ↔ legal :=
    legalFir_iff.trans (and_congr_left' (not_congr State.countOperand_eq_zero_iff))
  rw [exec_initFir_of_lt hk, State.constructIf]
  refine ⟨fun hlegal => ?_, fun hillegal => ?_⟩
  · rw [if_pos (hiff.mpr hlegal), State.construct, State.complete_encode]
    simp [State.setSlot, Slot.constructed, State.countOperand, State.baseOperand, Instr.opcode, Instr.instBits, Instr.slot?,
      count, base]
  · rw [if_neg (hiff.not.mpr hillegal), State.failConstruct, State.complete_encode]
    rfl

/-- A construction that reports OK has made its slot (R120). -/
theorem State.constructIf_of_code_ok {v : Word} {legal : Bool} {kind : Kind} {count base thr : Nat}
    (hcode : (s.constructIf v k legal kind count base thr).code = .ok) :
    s.constructIf v k legal kind count base thr = s.construct v k kind count base thr := by
  rcases State.constructIf_cases s v k legal kind count base thr with ⟨-, e⟩ | ⟨-, e⟩
  · exact e
  · rw [e] at hcode
    cases hcode

theorem exec_initFir_ok (hk : k < s.params.numInst) (h : exec (.initFir k) s = .next t) (hcode : t.code = .ok) :
    t = s.construct (encode (.initFir k)) k .fir (s.countOperand k) (s.baseOperand k) 0 := by
  rw [exec_initFir_of_lt hk] at h
  cases h
  exact State.constructIf_of_code_ok hcode

/-! ### One step (R182) -/

/-- Wrapping to n bits first does not change the low m of them. -/
theorem wrap_wrap_of_le {m n : Nat} (h : m ≤ n) (v : Int) : wrap m (wrap n v) = wrap m v :=
  Int.bmod_bmod_of_dvd (pow_dvd_pow 2 h)

theorem narrow_wrapA (p : Params) (v : Int) : narrow p (wrapA p v) = narrow p v :=
  wrap_wrap_of_le (by have := p.accBits_ok; omega) v

/-- The narrowed accumulator is the narrowed sum of the rescaled products: the wrap after each addition drops no bit of it. The
words multiplied are the input and then the delay line, tap 0 on the input (R182). -/
theorem narrow_firAcc (p : Params) (tap : Nat → Int) (hist : List Int) (x : Int) (m : Nat) :
    narrow p (firAcc p tap hist x m) =
      narrow p (∑ i ∈ Finset.range (m + 1), mulq p (tap i) ((x :: hist).getD i 0)) := by
  induction m with
  | zero => simp [firAcc]
  | succ m ih =>
    rw [Finset.sum_range_succ, firAcc, narrow_wrapA, List.getD_cons_succ]
    calc narrow p (firAcc p tap hist x m + mulq p (tap (m + 1)) (hist.getD m 0))
      _ = narrow p (narrow p (firAcc p tap hist x m) + mulq p (tap (m + 1)) (hist.getD m 0)) :=
        (wrap_add_left _ _ _).symm
      _ = _ := by rw [ih]; exact wrap_add_left _ _ _

theorem firStep_y {coef : Nat → Int} {sl : Slot} (hn : 1 ≤ sl.n.toNat) (x : Int) : (firStep p coef sl x).y =
    narrow p (∑ i ∈ Finset.range sl.n.toNat, mulq p (coef (sl.cbase.toNat + i)) ((x :: sl.hist).getD i 0)) := by
  rw [firStep, narrow_firAcc, Nat.sub_add_cancel hn]

theorem exec_process_of_fir (hk : k < s.params.numInst) (hkind : (s.slot k).kind = .fir) : exec (.process k) s =
    .next (s.finishProcess (encode (.process k)) k (firStep s.params s.coef (s.slot k) s.sampleOperand)) := by
  rw [exec, execProcess, State.onSlot_of_lt hk, State.kindStep, hkind]

theorem State.Inv.firInv (h : s.Inv) (hk : k < s.params.numInst) (hkind : (s.slot k).kind = .fir) :
    (s.slot k).FirInv s.params := (Slot.kindInv_fir hkind).mp (h.slot hk).kindInv

/-- A FIR slot has at least one tap, and no more than the history file has words (R181). -/
theorem State.Inv.fir_taps (h : s.Inv) (hk : k < s.params.numInst) (hkind : (s.slot k).kind = .fir) :
    1 ≤ (s.slot k).n.toNat ∧ (s.slot k).n.toNat ≤ (s.slot k).hist.length := by
  obtain ⟨hpos, hcap, -⟩ := h.firInv hk hkind
  exact ⟨hpos, (h.slot hk).histLength ▸ hcap⟩

theorem getD_cons_eq_ite (x : Int) (hist : List Int) (i : Nat) :
    (x :: hist).getD i 0 = if i = 0 then x else hist.getD (i - 1) 0 := by
  cases i <;> simp

/-- Settles O50: PROCESS ends the FIR step, which shifts the delay line and whose accumulator narrows to the sum (R121, R182). -/
theorem processOfFirSlotConvolves : Obligations.ProcessOfFirSlotConvolves := by
  intro s k hs hk hkind p sl x n y
  obtain ⟨hpos, hlen⟩ := hs.fir_taps hk hkind
  refine ⟨delayIn n sl.hist x, delayIn_length _ _ _, fun j => ?_, ?_⟩
  · rw [delayIn_getD n sl.hist x j hlen, ← ite_not]
    simp only [not_lt]
  · rw [exec_process_of_fir hk hkind, State.finishProcess_encode, firStep_y hpos]
    simp only [getD_cons_eq_ite]
    rfl

/-! ### The unity tap (R187) -/

/-- Multiplying a Sample by 1.0 leaves it: the scaled Sample fits an Accumulator (R153). -/
theorem mulq_two_pow_fracBits (p : Params) {x : Int} (hx : fits p.sampleBits x) : mulq p (2 ^ p.fracBits) x = x := by
  have hwidth : p.sampleBits ≤ p.accBits - 1 - p.fracBits + 1 := by
    have := p.accBits_ok
    have := p.sampleBits_ok
    unfold Params.fracBits
    omega
  obtain ⟨hl, hu⟩ := fits_mono (sampleBits_pos p) hwidth hx
  rw [mulq_comm]
  exact fromFixed_toFixed p hl hu

/-- Settles O51: the one product is the input, which is a Sample already (R187). -/
theorem firUnityTapIsTheIdentity : Obligations.FirUnityTapIsTheIdentity := by
  intro s k hk hkind hn htap
  refine ⟨_, exec_process_of_fir hk hkind, ?_, rfl⟩
  have hx := sampleOperand_fits s
  have hy : (firStep s.params s.coef (s.slot k) s.sampleOperand).y = s.sampleOperand := by
    rw [firStep_y (by simp [hn])]
    simp [hn, htap, mulq_two_pow_fracBits _ hx, narrow_of_fits _ hx]
  exact congrArg word32 hy

/-! ### A run of samples (R183, R186) -/

/-- Slot k of state t is the FIR slot that INIT_FIR constructs in state s, after the samples xs were fed to it: the taps read are
those of s, and the delay line holds the last samples, 0 before the first (R183). -/
structure FirFed (s : State) (k : Nat) (xs : List Word) (t : State) : Prop where
  params : t.params = s.params
  inv : t.Inv
  coef : t.coef = s.coef
  kind : (t.slot k).kind = .fir
  taps : (t.slot k).n = (s.instReg k).count
  base : (t.slot k).cbase = (s.instReg k).base
  delay : ∀ j, j + 1 < (t.slot k).n.toNat → (t.slot k).hist.getD j 0 = sampleBack s.params xs j

theorem exec_coef {i : Instr} (h : exec i s = .next t) : t.coef = s.coef := by
  obtain ⟨hparams, -, -, -, -, hram, hepoch⟩ := exec_frame h
  exact funext (State.coef_congr hram hepoch hparams)

theorem firFed_nil_of_initFir (hs : s.Inv) (hk : k < s.params.numInst) (h : exec (.initFir k) s = .next t)
    (hcode : t.code = .ok) : FirFed s k [] t := by
  have hinv : t.Inv := hs.exec h
  have hcoef := exec_coef h
  obtain rfl := exec_initFir_ok hk h hcode
  have hslot := State.slot_setSlot_self (Slot.constructed s.params .fir (s.countOperand k) (s.baseOperand k) 0)
    (hs.slotsLength ▸ hk)
  refine ⟨rfl, hinv, hcoef, ?_, ?_, ?_, fun j _ => ?_⟩ <;> rw [State.construct, State.slot_complete, hslot]
  · rfl
  · simp [Slot.constructed, State.countOperand]
  · simp [Slot.constructed, State.baseOperand]
  · simp [Slot.constructed, sampleBack]

/-- What feeding a word to a FIR slot leaves in RESULT, CODE and the slot (R121, R182). -/
theorem State.feed1_fields_of_fir (hs : s.Inv) (hk : k < s.params.numInst) (hkind : (s.slot k).kind = .fir) (x : Word) :
    let r := firStep s.params s.coef (s.slot k) (sampleOf s.params x)
    (s.feed1 k x).result = word32 r.y ∧ (s.feed1 k x).code = .ok ∧ (s.feed1 k x).slot k = r.slot := by
  rw [State.feed1_of_exec (exec_process_of_fir (s := { s with opa := x }) hk hkind)]
  exact State.finishProcess_fields (s := { s with opa := x }) _ _ (hs.slotsLength ▸ hk)

/-- The input in front of the delay line is the last samples, the input among them (R183). -/
theorem FirFed.getD_cons {xs : List Word} (h : FirFed s k xs t) (x : Word) {i : Nat} (hi : i < (t.slot k).n.toNat) :
    (sampleOf s.params x :: (t.slot k).hist).getD i 0 = sampleBack s.params (xs ++ [x]) i := by
  cases i with
  | zero => simp [sampleBack]
  | succ j => rw [List.getD_cons_succ, h.delay j hi]; simp [sampleBack]

/-- One more sample (R182). -/
theorem FirFed.concat {xs : List Word} (hk : k < s.params.numInst) (x : Word) (h : FirFed s k xs t) :
    FirFed s k (xs ++ [x]) (t.feed1 k x) := by
  have hkt : k < t.params.numInst := h.params ▸ hk
  obtain ⟨-, -, hslot⟩ := State.feed1_fields_of_fir h.inv hkt h.kind x
  refine ⟨(State.feed1_params t k x).trans h.params, h.inv.feed1 k x, (exec_coef (t.exec_feed1 k x)).trans h.coef,
    hslot ▸ h.kind, hslot ▸ h.taps, hslot ▸ h.base, fun j hj => ?_⟩
  rw [hslot] at hj ⊢
  have hj' : j + 1 < (t.slot k).n.toNat := hj
  rw [← h.getD_cons x (Nat.lt_of_succ_lt hj'), ← h.params, getD_cons_eq_ite]
  exact (delayIn_getD _ _ _ j (h.inv.fir_taps hkt h.kind).2).trans (if_pos hj')

theorem firFed_of_initFir (hs : s.Inv) (hk : k < s.params.numInst) (h : exec (.initFir k) s = .next t) (hcode : t.code = .ok)
    (xs : List Word) : FirFed s k xs (t.feed k xs) :=
  State.feed_induction (firFed_nil_of_initFir hs hk h hcode) (fun _ x _ => FirFed.concat hk x) xs

/-- The output for one more sample is the convolution of the taps with the samples fed (R182, R183). -/
theorem FirFed.result_feed1 {xs : List Word} (hk : k < s.params.numInst) (x : Word) (h : FirFed s k xs t) :
    (t.feed1 k x).result = word32 (narrow s.params (∑ i ∈ Finset.range (s.instReg k).count.toNat,
      mulq s.params (s.coef ((s.instReg k).base.toNat + i)) (sampleBack s.params (xs ++ [x]) i))) := by
  have hkt : k < t.params.numInst := h.params ▸ hk
  obtain ⟨hresult, -, -⟩ := State.feed1_fields_of_fir h.inv hkt h.kind x
  rw [hresult, firStep_y (h.inv.fir_taps hkt h.kind).1, h.params, h.coef, h.base, ← h.taps]
  congr 2
  exact Finset.sum_congr rfl fun i hi => by rw [h.getD_cons x (Finset.mem_range.mp hi)]

/-- Settles O52: before the last sample the delay line holds the samples fed, and the step on it convolves (R182, R186). -/
theorem firComputesTheConvolutionOfItsInputs : Obligations.FirComputesTheConvolutionOfItsInputs := by
  intro s s₁ k xs hs hk h hcode hne
  obtain ⟨ys, x, rfl⟩ := (List.eq_nil_or_concat' xs).resolve_left hne
  have hfed := firFed_of_initFir hs hk h hcode ys
  rw [State.feed_concat]
  obtain ⟨-, hok, -⟩ := State.feed1_fields_of_fir hfed.inv (hfed.params ▸ hk) hfed.kind x
  exact ⟨hok, hfed.result_feed1 hk x⟩

end Sys2Proof.Machine
end

section
/-! PROOFS. The iir_biquad_cascade: its construction, its step, a run of samples from a construction on, and the settled state
(44_iir_biquad_cascade.md R201 to R212). -/

namespace Sys2Proof.Machine

variable {p : Params} {sl : Slot} {s t : State} {k : Nat}

/-! ### Construction (R201, R203) -/

theorem legalBq_iff {count base : Nat} :
    legalBq p count base = true ↔ count ≠ 0 ∧ 2 * count ≤ p.histCap ∧ base + 6 * count ≤ p.coefDepth := by
  simp [legalBq, and_assoc]

/-- The threshold as a 16-bit field: the count, or twice it (R203). -/
theorem halfOfNat_threshold (settle2 : Bool) (count : Half) :
    BitVec.ofNat 16 (threshold settle2 count.toNat) = if settle2 then count + count else count := by
  cases settle2 <;> simp [threshold, two_mul, BitVec.ofNat_add]

theorem exec_initBq_of_lt (hk : k < s.params.numInst) : exec (.initBq k) s =
    .next (s.constructIf (encode (.initBq k)) k (legalBq s.params (s.countOperand k) (s.baseOperand k)) .bq
      (s.countOperand k) (s.baseOperand k) (threshold (s.settle2Operand k) (s.countOperand k))) :=
  congrArg _ (State.onSlot_of_lt hk)

/-- Settles O53: after the slot check INIT_BQ has the two outcomes of a construction, by its legality condition (R120, R201). -/
theorem initBqConstructsOrRejects : Obligations.InitBqConstructsOrRejects := by
  refine ⟨fun s k hk => ?_, checkedFirst_of_slot? fun _ => rfl⟩
  intro count base legal
  have hiff : legalBq s.params (s.countOperand k) (s.baseOperand k) = true ↔ legal :=
    legalBq_iff.trans (and_congr_left' (not_congr State.countOperand_eq_zero_iff))
  rw [exec_initBq_of_lt hk, State.constructIf]
  refine ⟨fun hlegal => ?_, fun hillegal => ?_⟩
  · rw [if_pos (hiff.mpr hlegal), State.construct, State.complete_encode]
    simp [State.setSlot, Slot.constructed, State.countOperand, State.baseOperand, State.settle2Operand, halfOfNat_threshold,
      Instr.opcode, Instr.instBits, Instr.slot?, count, base]
  · rw [if_neg (hiff.not.mpr hillegal), State.failConstruct, State.complete_encode]
    rfl

theorem exec_initBq_ok (hk : k < s.params.numInst) (h : exec (.initBq k) s = .next t) (hcode : t.code = .ok) :
    t = s.construct (encode (.initBq k)) k .bq (s.countOperand k) (s.baseOperand k)
      (threshold (s.settle2Operand k) (s.countOperand k)) := by
  rw [exec_initBq_of_lt hk] at h
  cases h
  exact State.constructIf_of_code_ok hcode

/-! ### One section (R205, R206) -/

/-- The wrap of the feed-forward sum drops nothing that the wrap of the whole keeps: a section's output is its recurrence,
wrapped once. -/
theorem sectionOut_eq (p : Params) (c : Nat → Int) (u d0 d1 : Int) : sectionOut p c u d0 d1 =
    wrapA p (mulq p (c 0) u + mulq p (c 1) d0 + mulq p (c 2) d1 - mulq p (c 4) d0 - mulq p (c 5) d1) := by
  rw [sectionOut, sub_sub, sub_sub]
  exact wrap_sub_left _ _ _

/-- A section writes its delay pair, the output and the old first word, and no other word (R204, R205). -/
theorem runSection_getD (p : Params) (coef : Nat → Int) (hu : List Int × Int) {m : Nat} (hm : 2 * m + 1 < hu.1.length)
    (j : Nat) : (runSection p coef hu m).1.getD j 0 =
      if j = 2 * m then (runSection p coef hu m).2 else if j = 2 * m + 1 then hu.1.getD (2 * m) 0 else hu.1.getD j 0 := by
  obtain rfl | hout := eq_or_ne j (2 * m)
  · simp [runSection, Nat.lt_of_succ_lt hm]
  obtain rfl | hold := eq_or_ne j (2 * m + 1)
  · simp [runSection, hm]
  · simp [runSection, hout, hout.symm, hold, hold.symm]

/-! ### The cascade (R202, R205, R207) -/

/-- Section m runs on the output of the one before it and on its own delay pair as it was (R205). -/
theorem runSections_succ_output (p : Params) (coef : Nat → Int) (hist : List Int) (x : Int) (m : Nat) :
    (runSections p coef hist x (m + 1)).2 = sectionOut p (fun i => coef (6 * m + i)) (runSections p coef hist x m).2
      (hist.getD (2 * m) 0) (hist.getD (2 * m + 1) 0) := by
  simp only [runSections, runSection]
  rw [runSections_getD_ge _ _ _ _ _ _ le_rfl, runSections_getD_ge _ _ _ _ _ _ (Nat.le_succ _)]

/-- After n sections the delay pair of each of them is its output and the old first word (R204, R205). -/
theorem runSections_delayPair (p : Params) (coef : Nat → Int) {hist : List Int} (x : Int) {m n : Nat} (hm : m < n)
    (hn : 2 * n ≤ hist.length) :
    (runSections p coef hist x n).1.getD (2 * m) 0 = (runSections p coef hist x (m + 1)).2 ∧
      (runSections p coef hist x n).1.getD (2 * m + 1) 0 = hist.getD (2 * m) 0 := by
  induction n with
  | zero => omega
  | succ n ih =>
    have hpair : 2 * n + 1 < (runSections p coef hist x n).1.length := by rw [runSections_length]; omega
    rw [runSections, runSection_getD _ _ _ hpair, runSection_getD _ _ _ hpair]
    rcases Nat.lt_succ_iff_lt_or_eq.mp hm with hlt | rfl
    · simpa [show ¬ 2 * m = 2 * n by omega, show ¬ 2 * m = 2 * n + 1 by omega, show ¬ 2 * m + 1 = 2 * n by omega,
        show ¬ 2 * m + 1 = 2 * n + 1 by omega] using ih hlt (by omega)
    · simpa [runSections] using runSections_getD_ge p coef hist x m (2 * m) le_rfl

/-! ### One step (R205, R208, R209) -/

/-- The counter rises to the threshold and stays there (R209). -/
theorem bqStep_slot_cnt (p : Params) (coef : Nat → Int) (sl : Slot) (x : Int) :
    (bqStep p coef sl x).slot.cnt.toNat = min (sl.cnt.toNat + 1) sl.thr.toNat :=
  toNat_halfOfNat ((Nat.min_le_right _ _).trans_lt sl.thr.isLt)

/-- The code of a step is OK exactly if the counter was at the threshold before it (R121, R208). -/
theorem Code.ofValid_bqStep (p : Params) (coef : Nat → Int) (sl : Slot) (x : Int) :
    Code.ofValid (bqStep p coef sl x).valid = if sl.cnt = sl.thr then .ok else .invalidOutput := by
  simp [bqStep, Code.ofValid]

theorem exec_process_of_bq (hk : k < s.params.numInst) (hkind : (s.slot k).kind = .bq) : exec (.process k) s =
    .next (s.finishProcess (encode (.process k)) k (bqStep s.params s.coef (s.slot k) s.sampleOperand)) := by
  rw [exec, execProcess, State.onSlot_of_lt hk, State.kindStep, hkind]

theorem State.Inv.bqInv (h : s.Inv) (hk : k < s.params.numInst) (hkind : (s.slot k).kind = .bq) :
    (s.slot k).BqInv s.params := (Slot.kindInv_bq hkind).mp (h.slot hk).kindInv

/-- Settles O54: PROCESS ends the BQ step, whose sections hand their outputs on and take their delay pairs (R121, R205). -/
theorem processOfBqSlotRunsTheCascade : Obligations.ProcessOfBqSlotRunsTheCascade := by
  intro s k hs hk hkind p sl c
  obtain ⟨-, hcap, -⟩ := hs.bqInv hk hkind
  have hlen : 2 * sl.n.toNat ≤ sl.hist.length := (hs.slot hk).histLength ▸ hcap
  refine ⟨fun m => (runSections p (fun i => s.coef (sl.cbase.toNat + i)) sl.hist s.sampleOperand m).2,
    (bqStep p s.coef sl s.sampleOperand).slot.hist, rfl, runSections_length _ _ _ _ _, fun m hm => ⟨?_, ?_⟩,
    fun j hj => runSections_getD_ge _ _ _ _ _ j hj, ?_⟩
  · exact (runSections_succ_output _ _ _ _ m).trans (sectionOut_eq _ _ _ _ _)
  · exact runSections_delayPair _ _ _ hm hlen
  · rw [exec_process_of_bq hk hkind, State.finishProcess_encode, Code.ofValid_bqStep]
    rfl

/-! ### The identity section (R212) -/

theorem mulq_zero_left (p : Params) (v : Int) : mulq p 0 v = 0 := by simp [mulq, fromFixed, asr, wrapA]

/-- A section with b0 = 1.0 and the other coefficients it reads 0 hands a Sample on unchanged. -/
theorem sectionOut_identity {c : Nat → Int} {u : Int} (hu : fits p.sampleBits u) (hb0 : c 0 = 2 ^ p.fracBits)
    (hzero : ∀ i ∈ [1, 2, 4, 5], c i = 0) (d0 d1 : Int) : sectionOut p c u d0 d1 = u := by
  have hwrap := wrapA_of_fits p (fits_accBits_of_sample p hu)
  simp only [List.forall_mem_cons] at hzero
  obtain ⟨hb1, hb2, ha1, ha2, -⟩ := hzero
  rw [sectionOut_eq, hb0, hb1, hb2, ha1, ha2]
  simpa [mulq_zero_left, mulq_two_pow_fracBits p hu] using hwrap

theorem bqStep_y_of_one {coef : Nat → Int} (hn : sl.n = 1) (x : Int) : (bqStep p coef sl x).y =
    narrow p (sectionOut p (fun i => coef (sl.cbase.toNat + i)) x (sl.hist.getD 0 0) (sl.hist.getD 1 0)) := by
  simp only [bqStep, hn]
  refine (congrArg (narrow p) (runSections_succ_output p _ sl.hist x 0)).trans ?_
  simp [runSections]

/-- Settles O55: the one section hands the Sample on, and the counter is 0 or the threshold 1 (R208, R209, R212). -/
theorem bqIdentitySectionIsTheIdentity : Obligations.BqIdentitySectionIsTheIdentity := by
  intro s k hs hk hkind hn hb0 hzero
  refine ⟨_, exec_process_of_bq hk hkind, ?_, fun hthr => ?_⟩
  · have hx := sampleOperand_fits s
    have hy : (bqStep s.params s.coef (s.slot k) s.sampleOperand).y = s.sampleOperand := by
      rw [bqStep_y_of_one hn, sectionOut_identity hx hb0 hzero, narrow_of_fits _ hx]
    exact congrArg word32 hy
  · obtain ⟨-, -, -, -, hcnt, -⟩ := hs.bqInv hk hkind
    have hbit : (s.slot k).cnt = 0 ∨ (s.slot k).cnt = 1 := by
      rw [hthr] at hcnt
      bv_omega
    refine (Code.ofValid_bqStep _ _ _ _).trans ?_
    rcases hbit with h | h <;> simp [h, hthr]

/-! ### A run of samples (R208, R209, R210) -/

/-- Slot k of state t is a BQ slot of that threshold after the samples xs were fed to it since its construction: the counter is
their number, up to the threshold (R209). -/
structure BqFed (p : Params) (k thr : Nat) (xs : List Word) (t : State) : Prop where
  params : t.params = p
  inv : t.Inv
  kind : (t.slot k).kind = .bq
  threshold : (t.slot k).thr.toNat = thr
  count : (t.slot k).cnt.toNat = min xs.length thr

/-- The threshold of a slot that meets the invariant fits its field: two history words per section do (R201, R203). -/
theorem Slot.constructedBq_thr {count : Half} {base : Nat} (settle2 : Bool)
    (h : (Slot.constructed p .bq count.toNat base (threshold settle2 count.toNat)).Inv p) :
    (Slot.constructed p .bq count.toNat base (threshold settle2 count.toNat)).thr.toNat = threshold settle2 count.toNat := by
  obtain ⟨-, hcap, -⟩ := (Slot.kindInv_bq rfl).mp h.kindInv
  simp only [Slot.constructed, BitVec.ofNat_toNat, BitVec.setWidth_eq] at hcap
  have hhist := p.histCap_ok
  have hcases := threshold_cases settle2 count.toNat
  exact toNat_halfOfNat (by omega)

theorem bqFed_nil_of_initBq (hs : s.Inv) (hk : k < s.params.numInst) (h : exec (.initBq k) s = .next t) (hcode : t.code = .ok) :
    BqFed s.params k (threshold (s.settle2Operand k) (s.countOperand k)) [] t := by
  have hinv : t.Inv := hs.exec h
  obtain ⟨hparams, -⟩ := exec_frame h
  have hslot : t.slot k = Slot.constructed s.params .bq (s.countOperand k) (s.baseOperand k)
      (threshold (s.settle2Operand k) (s.countOperand k)) := by
    rw [exec_initBq_ok hk h hcode]
    exact State.slot_setSlot_self _ (hs.slotsLength ▸ hk)
  have hslotInv := hinv.slot (hparams ▸ hk)
  rw [hslot, hparams] at hslotInv
  refine ⟨hparams, hinv, ?_, ?_, ?_⟩ <;> rw [hslot]
  · rfl
  · exact Slot.constructedBq_thr _ hslotInv
  · exact (Nat.zero_min _).symm

/-- What feeding a word to a BQ slot leaves in RESULT, CODE and the slot (R121, R205). -/
theorem State.feed1_fields_of_bq (hs : s.Inv) (hk : k < s.params.numInst) (hkind : (s.slot k).kind = .bq) (x : Word) :
    let r := bqStep s.params s.coef (s.slot k) (sampleOf s.params x)
    (s.feed1 k x).result = word32 r.y ∧ (s.feed1 k x).code = Code.ofValid r.valid ∧ (s.feed1 k x).slot k = r.slot := by
  rw [State.feed1_of_exec (exec_process_of_bq (s := { s with opa := x }) hk hkind)]
  exact State.finishProcess_fields (s := { s with opa := x }) _ _ (hs.slotsLength ▸ hk)

/-- One more sample (R209). -/
theorem BqFed.concat {thr : Nat} {xs : List Word} (hk : k < p.numInst) (x : Word) (h : BqFed p k thr xs t) :
    BqFed p k thr (xs ++ [x]) (t.feed1 k x) := by
  obtain ⟨rfl, hinv, hkind, hthr, hcount⟩ := h
  obtain ⟨-, -, hslot⟩ := State.feed1_fields_of_bq hinv hk hkind x
  refine ⟨State.feed1_params t k x, hinv.feed1 k x, hslot ▸ hkind, hslot ▸ hthr, ?_⟩
  rw [hslot, bqStep_slot_cnt, hcount, hthr, List.length_append, List.length_singleton]
  omega

theorem bqFed_of_initBq (hs : s.Inv) (hk : k < s.params.numInst) (h : exec (.initBq k) s = .next t) (hcode : t.code = .ok)
    (xs : List Word) : BqFed s.params k (threshold (s.settle2Operand k) (s.countOperand k)) xs (t.feed k xs) :=
  State.feed_induction (bqFed_nil_of_initBq hs hk h hcode) (fun _ x _ => BqFed.concat hk x) xs

/-- The counter is at the threshold exactly when at least as many samples as it were fed (R209). -/
theorem BqFed.cnt_eq_thr_iff {thr : Nat} {xs : List Word} (h : BqFed p k thr xs t) :
    (t.slot k).cnt = (t.slot k).thr ↔ ¬ xs.length < thr := by
  rw [← BitVec.toNat_inj, h.count, h.threshold]
  omega

/-- Settles O56: after the samples the counter is their number, up to the threshold, and it decides the code of the next step
(R208, R209, R210). -/
theorem bqWarmUpCountsItsThreshold : Obligations.BqWarmUpCountsItsThreshold := by
  intro s s₁ k xs x hs hk h hcode m T t
  have hfed : BqFed s.params k T xs t := bqFed_of_initBq hs hk h hcode xs
  obtain ⟨-, hnext, -⟩ := State.feed1_fields_of_bq hfed.inv (hfed.params ▸ hk) hfed.kind x
  rw [Code.ofValid_bqStep] at hnext
  refine ⟨hfed.count, hnext, hnext.trans ?_⟩
  simp only [hfed.cnt_eq_thr_iff, ite_not]

/-! ### The settled state (R211) -/

/-- SETTLED of the warm-up state machine (R211). -/
def Slot.SettledBq (sl : Slot) : Prop := sl.kind = .bq ∧ sl.settled = true

theorem Slot.settledBq_iff : sl.SettledBq ↔ sl.kind = .bq ∧ sl.cnt = sl.thr :=
  and_congr_right fun hkind => by simp [Slot.settled, hkind]

/-- A step leaves a settled slot settled: the counter does not pass the threshold (R209, R211). -/
theorem kindStep_settledBq {r : StepResult} (h : (s.slot k).SettledBq) (hr : s.kindStep k = some r) : r.slot.SettledBq := by
  obtain ⟨hkind, hcnt⟩ := Slot.settledBq_iff.mp h
  simp only [State.kindStep, hkind, Option.some.injEq] at hr
  subst hr
  refine Slot.settledBq_iff.mpr ⟨hkind, BitVec.eq_of_toNat_eq ?_⟩
  rw [bqStep_slot_cnt, hcnt]
  exact Nat.min_eq_right (Nat.le_succ _)

/-- The commands that bind or release slot k (R127). -/
theorem mem_rebinding_of_opcode {i : Instr} (hop : i.opcode ∈ ([0x1, 0x2, 0x3, 0x9] : List Nibble))
    (hk : ∀ j, i.slot? = some j → j = k) : i ∈ [Instr.initMa k, .initFir k, .initBq k, .release k] := by
  cases i with
  | initMa j | initFir j | initBq j | release j => cases hk j rfl; simp
  | _ => simp [Instr.opcode] at hop

theorem exec_settledBq {i : Instr} (hset : (s.slot k).SettledBq) (h : exec i s = .next t) :
    (t.slot k).SettledBq ∨ i ∈ [Instr.initMa k, .initFir k, .initBq k, .release k] := by
  obtain ⟨j, hj⟩ : ∃ j, ∀ j', i.slot? = some j' → j' = j := ⟨i.slot?.getD 0, fun j' e => by simp [e]⟩
  rcases exec_completes hj h with ⟨c, -, rfl⟩ | ⟨-, y, rfl⟩ | ⟨hop, sl, c, -, rfl⟩ | ⟨-, r, hr, rfl⟩
  · exact .inl hset
  · exact .inl hset
  · by_cases hjk : k = j
    · exact .inr (mem_rebinding_of_opcode hop (hjk ▸ hj))
    · left
      rwa [State.slot_complete, State.slot_setSlot_ne s sl hjk]
  · left
    rw [State.finishProcess, State.slot_complete, State.slot_setResult, State.slot_setSlot]
    split_ifs with hjk
    · exact kindStep_settledBq (hjk.1 ▸ hset) hr
    · exact hset

theorem execute_settledBq {v : Word} (hset : (s.slot k).SettledBq) (h : execute v s = .next t) :
    (t.slot k).SettledBq ∨ ∃ i, v = encode i ∧ i ∈ [Instr.initMa k, .initFir k, .initBq k, .release k] := by
  rcases execute_cases v s with ⟨-, -, g⟩ | ⟨i, hi, g⟩ <;> rw [g] at h
  · cases h
    exact .inl hset
  · exact (exec_settledBq hset h).imp_right fun hmem => ⟨i, (encode_of_decode hi).symm, hmem⟩

/-- Settles O57: of the commands only a construction or a release rewrites the slot, and of the host's operations only a reset
writes slots (R211). -/
theorem settledIsTerminal : Obligations.SettledIsTerminal := by
  intro s t k hkind hsettled h
  have hset : (s.slot k).SettledBq := ⟨hkind, hsettled⟩
  rcases step_next_cases h with rfl | ⟨v, hturn, hpend, e⟩ | ⟨op, rest, hturn, hops, e⟩
  · exact .inl hset
  · rcases execute_settledBq (s := s.turnTaken) hset e with hset' | ⟨i, rfl, hmem⟩
    · exact .inl hset'
    · exact .inr (.inr ⟨hturn, i, hpend, hmem⟩)
  · by_cases hop : ∃ level, op = .rstN level
    · obtain ⟨level, rfl⟩ := hop
      exact .inr (.inl ⟨hturn, level, rest, hops⟩)
    · obtain ⟨-, -, -, -, -, -, -, hslots, -⟩ := hostOp_frame (not_exists.mp hop) e
      left
      rwa [State.slot_congr (s := s) hslots]

end Sys2Proof.Machine
end

section
/-! PROOFS. Errors and idle turns: the codes each command can report, the one step that stops, and the step with nothing to do
(60_exceptions.md R238 to R242, R251; 70_reset_and_hazards.md R261). -/

namespace Sys2Proof.Machine

variable {s t : State} {v : Word} {i : Instr} {k : Nat}

/-! ### The code of a command (R240) -/

/-- Settles O30: BAD_INST is the completion alone, before anything the command does itself (R238). -/
theorem slotNumbersOutOfRangeGiveBadInst : Obligations.SlotNumbersOutOfRangeGiveBadInst := by
  intro s i k hs hk
  rw [exec_of_badInst hs hk, State.complete_encode, Instr.instBits, hs]

/-- PROCESS of an UNBOUND slot takes no step (R121). -/
theorem exec_process_of_unbound (hk : k < s.params.numInst) (hb : (s.slot k).kind = .unbound) :
    exec (.process k) s = .next (s.complete (encode (.process k)) .notBound) := by
  have hstep : s.kindStep k = none := by rw [State.kindStep, hb]
  rw [exec, execProcess, State.onSlot_of_lt hk, hstep]

/-- Settles O32: after the slot check PROCESS of an UNBOUND slot is the completion alone (R239). -/
theorem processOfUnboundSlotIsNotBound : Obligations.ProcessOfUnboundSlotIsNotBound := by
  intro s k hk hb
  rw [exec_process_of_unbound hk hb, State.complete_encode]
  rfl

/-- The codes a command can report once its word is legal and its slot exists: its own check's first, then its result's (R240). -/
def State.ownCodes (s : State) : Instr → List Code
  | .initMa _ | .initFir _ | .initBq _ => [.ok, .invalidParam]
  | .initIirDf _ | .initIirLp _ | .initIirBp _ | .initIirBs _ => [.notImplemented]
  | .process k => if (s.slot k).kind = .unbound then [.notBound] else [.ok, .invalidOutput]
  | .nop | .release _ | .fxTofix | .fxFromfix | .fxMul | .fxNarrow => [.ok]

theorem State.constructIf_code (s : State) (v : Word) (k : Nat) (legal : Bool) (kind : Kind) (count base thr : Nat) :
    (s.constructIf v k legal kind count base thr).code ∈ [Code.ok, .invalidParam] := by
  rcases State.constructIf_cases s v k legal kind count base thr with ⟨-, e⟩ | ⟨-, e⟩ <;> simp [e]

theorem Code.ofValid_mem (valid : Bool) : Code.ofValid valid ∈ [Code.ok, .invalidOutput] := by cases valid <;> decide

theorem exec_code_mem_ownCodes (hk : ∀ k, i.slot? = some k → k < s.params.numInst) (h : exec i s = .next t) :
    t.code ∈ s.ownCodes i := by
  cases i with
  | nop | fxTofix | fxFromfix | fxMul | fxNarrow => cases h; exact List.mem_singleton_self _
  | initMa k | initFir k | initBq k =>
    cases h.symm.trans (congrArg Host.Outcome.next (State.onSlot_of_lt (hk k rfl)))
    exact State.constructIf_code _ _ _ _ _ _ _ _
  | initIirDf k | initIirLp k | initIirBp k | initIirBs k =>
    rw [exec_stub (by simp [Instr.opcode]) rfl (hk k rfl)] at h
    cases h
    exact List.mem_singleton_self _
  | process k =>
    rw [State.ownCodes]
    split_ifs with hb
    · rw [exec_process_of_unbound (hk k rfl) hb] at h
      cases h
      exact List.mem_singleton_self _
    · obtain ⟨r, -, e⟩ := exec_process_of_bound (hk k rfl) hb
      rw [e] at h
      cases h
      exact Code.ofValid_mem r.valid
  | release k => rw [exec_release_of_lt (hk k rfl)] at h; cases h; exact List.mem_singleton_self _

/-- The code of a legal word of opcode `op` on slot `k`: the slot check comes before the command's own codes (R240). -/
theorem exec_code {op : Nibble} (hinstr : instrOf op k = some i) (h : exec i s = .next t) :
    if 1 ≤ op.toNat ∧ op.toNat ≤ 9 ∧ s.params.numInst ≤ k then t.code = .badInst else t.code ∈ s.ownCodes i := by
  split_ifs with hbad
  · obtain ⟨hlow, hhigh, hk⟩ := hbad
    rw [exec_of_badInst (slot?_of_instrOf hinstr ⟨hlow, hhigh⟩) hk] at h
    cases h
    rfl
  · refine exec_code_mem_ownCodes (fun j hj => ?_) h
    have hop : isInstanceOp op := by
      by_contra hop
      rw [(slot?_eq_none_iff_of_instrOf hinstr).mpr hop] at hj
      cases hj
    rw [slot?_of_instrOf hinstr hop] at hj
    cases hj
    exact Nat.lt_of_not_le fun hk => hbad ⟨hop.1, hop.2, hk⟩

/-- An illegal word runs no command (R118, R237). -/
theorem execute_of_error {e : IllegalReason} (h : decode v = .error e) (s : State) :
    execute v s = .next (s.completeIllegal v) := by
  rw [execute, h]

/-- Settles O35: ILLEGAL_CMD is the decoder's error and BAD_INST the slot check; after both the opcode leaves the command's own
codes, and no host write changes the code (R240). -/
theorem statusCodePriority : Obligations.StatusCodePriority := by
  refine ⟨fun v s => ?_, fun s a size v => ?_, _, rfl⟩
  · obtain ⟨t, ht⟩ := execute_next v s
    refine ⟨t, ht, ?_⟩
    intro op k
    cases hd : decode v with
    | error e =>
      rw [execute_of_error hd] at ht
      cases ht
      rfl
    | ok i =>
      rw [execute_of_decode hd] at ht
      have hinstr : instrOf op k = some i := (decode_eq_ok_iff.mp hd).1
      have hcode := exec_code hinstr ht
      have hop : i.opcode = op := opcode_of_instrOf hinstr
      have hslot : ∀ j, i.slot? = some j → k = j := fun j => slot_of_decode hd
      dsimp only
      split_ifs at hcode with hbad
      · rwa [if_pos hbad]
      · rw [if_neg hbad, ← hop]
        cases i with
        | process j =>
          rw [hslot j rfl]
          by_cases hb : (s.slot j).kind = .unbound <;> simpa [Instr.opcode, State.ownCodes, hb] using hcode
        | _ => simpa [Instr.opcode, State.ownCodes] using hcode
  · obtain ⟨-, -, -, hcode, -⟩ := State.busWrite_frame s a size v
    exact hcode

/-! ### The steps that stop (R242, R261) -/

/-- The host is about to make a bus transaction while rst_n is 0 (R261). -/
def State.transactsInReset (s : State) : Prop :=
  s.turn = .host ∧ s.rstN = false ∧ ∃ op rest, s.host = op :: rest ∧ ∀ level, op ≠ .rstN level

theorem hostOp_fault {op : HostOp} (hop : ∀ level, op ≠ .rstN level) (h : s.rstN = false) :
    hostOp op s = .fault .transactionInReset := by
  cases op with
  | rstN level => exact absurd rfl (hop level)
  | read | write | poll => simp [hostOp, State.transaction, h]

theorem hostOp_next {op : HostOp} (h : (∀ level, op ≠ .rstN level) → s.rstN = true) : ∃ t, hostOp op s = .next t := by
  cases op with
  | rstN level => exact ⟨_, rfl⟩
  | read | write | poll => exact ⟨_, State.transaction_of_up (h (by simp))⟩

theorem engineTurn_next (s : State) : ∃ t, engineTurn s = .next t := by
  cases hp : s.pend with
  | none => exact ⟨s, engineTurn_none hp⟩
  | some v => rw [engineTurn_some hp]; exact execute_next v s

theorem step_of_transactsInReset (h : s.transactsInReset) : step s = .fault .transactionInReset := by
  obtain ⟨hturn, hdown, op, rest, hops, hop⟩ := h
  rw [step_of_host hturn, hostTurn_cons (s := s.turnTaken) hops]
  exact hostOp_fault hop hdown

theorem step_of_not_transactsInReset (h : ¬ s.transactsInReset) : ∃ t, step s = .next t := by
  rcases step_cases s with ⟨-, e⟩ | ⟨hturn, e⟩ <;> rw [e]
  · exact engineTurn_next s.turnTaken
  · cases hops : s.host with
    | nil => exact ⟨_, hostTurn_nil (s := s.turnTaken) hops⟩
    | cons op rest =>
      rw [hostTurn_cons (s := s.turnTaken) hops]
      exact hostOp_next fun hop => Bool.eq_true_of_not_eq_false fun hdown => h ⟨hturn, hdown, op, rest, hops, hop⟩

/-- Settles O13: a command always completes, and a host operation answers a next state unless it is a transaction in reset
(R242, R261). -/
theorem onlyTransactionsInResetStop : Obligations.OnlyTransactionsInResetStop := by
  intro s
  by_cases h : s.transactsInReset
  · rw [step_of_transactsInReset h]
    exact ⟨nofun, fun f => ⟨fun e => by cases e; exact ⟨rfl, h⟩, fun ⟨e, _⟩ => e ▸ rfl⟩⟩
  · obtain ⟨t, e⟩ := step_of_not_transactsInReset h
    rw [e]
    exact ⟨nofun, fun f => ⟨nofun, fun ⟨_, h'⟩ => absurd h' h⟩⟩

/-! ### The idle machine (R251) -/

/-- Settles O12: whoever's turn it is, there is nothing to do in it (R3, R251). -/
theorem idleMachineHoldsItsState : Obligations.IdleMachineHoldsItsState := by
  intro s hpend hhost
  rcases step_cases s with ⟨-, e⟩ | ⟨-, e⟩
  · exact e.trans (engineTurn_none (s := s.turnTaken) hpend)
  · exact e.trans (hostTurn_nil (s := s.turnTaken) hhost)

end Sys2Proof.Machine
end

section
/-! PROOFS. The reset input, the reset values, and how long a pending command and a host program can take
(70_reset_and_hazards.md R261, R262, R274, R275). -/

namespace Sys2Proof.Machine

variable {s t u : State} {v : Word} {op : HostOp} {rest : List HostOp}

/-! ### The values after reset (R262) -/

/-- Settles O59: the invariant holds after every reset, whatever its free history words are. -/
theorem resetMeetsTheInvariant : Obligations.ResetMeetsTheInvariant := State.Inv.resetOf Config.cef 0

theorem State.slot_resetOf {p : Params} {k : Nat} (hk : k < p.numInst) (epoch : Nat) :
    (State.resetOf p epoch).slot k = Slot.afterReset p epoch k := by
  simp [State.slot, State.resetOf, List.getD_eq_getElem?_getD, hk]

theorem State.instReg_resetOf (p : Params) (epoch k : Nat) : (State.resetOf p epoch).instReg k = InstRegs.afterReset :=
  (List.getD_eq_getElem?_getD ..).trans (List.getElem?_getD_replicate_default_eq _ _ _)

/-- An unbound slot, whose fields are 0 (R36), reads 0 in each of its view registers (R39 to R42). -/
theorem Slot.viewWords_of_unbound {sl : Slot} (hkind : sl.kind = .unbound) (h : sl.UnboundInv) :
    sl.stateWord = 0 ∧ sl.idxWord = 0 ∧ sl.sumWord = 0 ∧ sl.boundWord = 0 := by
  obtain ⟨hn, hcbase, hthr, hcnt, hwidx, hsum⟩ := h
  simp only [Slot.stateWord, Slot.settled, Slot.idxWord, Slot.sumWord, Slot.boundWord, hkind, hn, hcbase, hthr, hcnt, hwidx,
    hsum]
  decide

/-- Settles O26: the block's own registers are read one by one, a slot's registers at every existing slot. -/
theorem resetValuesAreTheSpecs : Obligations.ResetValuesAreTheSpecs := by
  refine ⟨rfl, rfl, rfl, rfl, rfl, rfl, rfl, rfl, rfl, rfl, rfl, rfl, rfl, fun k hk => ?_⟩
  have hk' : k < State.reset.params.numInst := hk
  have hreg : State.reset.instReg k = InstRegs.afterReset := State.instReg_resetOf Config.cef 0 k
  have hslot : State.reset.slot k = Slot.afterReset Config.cef 0 k := State.slot_resetOf hk 0
  obtain ⟨hstate, hidx, hsum, hbound⟩ :=
    Slot.viewWords_of_unbound (sl := Slot.afterReset Config.cef 0 k) rfl ⟨rfl, rfl, rfl, rfl, rfl, rfl⟩
  rw [State.busRead_cfg hk', State.busRead_coef hk', State.busRead_state hk', State.busRead_idx hk', State.busRead_sum hk',
    State.busRead_bound hk', hreg, hslot]
  exact ⟨rfl, rfl, hstate, hidx, hsum, hbound, rfl, rfl, rfl, rfl, rfl, rfl, rfl⟩

/-! ### Driving the reset input (R261) -/

/-- The host's turn takes the next operation off its list and performs it. -/
theorem step_of_host_cons (hturn : s.turn = .host) (hops : s.host = op :: rest) :
    step s = hostOp op { s with sched := s.sched.tail, host := rest } := by
  rw [step_of_host hturn, hostTurn_cons (s := s.turnTaken) hops]
  rfl

/-- Settles O27: the host's turn drives the reset input, and a transaction in reset stops. -/
theorem resetInputForcesResetValues : Obligations.ResetInputForcesResetValues := by
  intro s rest hturn
  refine ⟨fun hops => ⟨_, step_of_host_cons hturn hops, rfl, rfl, rfl⟩, fun hops hdown => ?_, fun op hops hop hdown => ?_⟩
  · refine ⟨State.withResetValues { s with sched := s.sched.tail, host := rest } true, ?_, rfl⟩
    rw [step_of_host_cons hturn hops, hostOp, State.driveReset, hdown]
    rfl
  · exact step_of_transactsInReset ⟨hturn, hdown, op, rest, hops, hop⟩

/-! ### Runs -/

theorem run_succ_of_step {M : Host.Core} {s t : M.State} (h : M.step s = .next t) (n : Nat) :
    M.run (n + 1) s = M.run n t := by
  rw [Host.Core.run, h]

/-- A run can be prolonged by one step at its end. -/
theorem run_succ_of_run {M : Host.Core} {n : Nat} {s t u : M.State} (hrun : M.run n s = .next u) (h : M.step u = .next t) :
    M.run (n + 1) s = .next t := by
  induction n generalizing s with
  | zero =>
    cases hrun
    exact run_succ_of_step h 0
  | succ n ih =>
    rw [Host.Core.run] at hrun
    split at hrun
    next r hr => rw [run_succ_of_step hr, ih hrun]
    all_goals cases hrun

/-! ### Turns and the schedule (log 7) -/

/-- Once the schedule has run out, the turn is the engine's exactly if a command is pending; any other turn is an entry of
the schedule. -/
theorem State.length_tail_sched_lt (h : s.turn ≠ if s.busy then .engine else .host) :
    s.sched.tail.length < s.sched.length := by
  cases hsched : s.sched with
  | nil => exact absurd (State.turn_nil hsched) h
  | cons u rest => simp

/-- Only a poll that reads BUSY as 1 puts itself back on the host's list (R100). -/
theorem hostOp_host_cases (h : hostOp op s = .next t) :
    t.host = s.host ∨ (op = .poll ∧ s.busy = true ∧ t = { s with host := .poll :: s.host }) := by
  cases op with
  | rstN level =>
    cases h
    rcases State.driveReset_cases s level with ⟨-, -, e⟩ | ⟨-, e⟩ <;> rw [e]
    · exact .inl rfl
    · exact .inl rfl
  | read a size =>
    obtain ⟨-, rfl⟩ := State.transaction_next.mp h
    exact .inl rfl
  | write a size v =>
    obtain ⟨-, rfl⟩ := State.transaction_next.mp h
    obtain ⟨-, -, -, -, -, -, -, -, hhost, -⟩ := State.busWrite_frame s a size v
    exact .inl hhost
  | poll =>
    obtain ⟨-, rfl⟩ := State.transaction_next.mp h
    rw [State.pollOnce_eq]
    split
    next hbusy => exact .inr ⟨rfl, hbusy, rfl⟩
    next => exact .inl rfl

/-- The host has no reset to perform. -/
def State.resetFree (s : State) : Prop := ∀ op ∈ s.host, ∀ level, op ≠ .rstN level

/-- The host's operations are those it had before, so it still has no reset to perform. -/
theorem hostOp_resetFree (hfree : s.resetFree) (hops : s.host = op :: rest)
    (h : hostOp op { s with sched := s.sched.tail, host := rest } = .next t) : t.resetFree := by
  rw [State.resetFree, hops] at hfree
  rcases hostOp_host_cases h with hhost | ⟨rfl, -, rfl⟩
  · rw [State.resetFree, hhost]
    exact fun op' hop' => hfree op' (List.mem_cons_of_mem _ hop')
  · exact hfree

/-! ### A pending command (R274) -/

/-- `t` is `s` but for ERR, the host's list, the schedule and what the host has read. -/
def State.sameBlockAs (t s : State) : Prop :=
  t = { s with err := t.err, host := t.host, sched := t.sched, reads := t.reads }

theorem State.sameBlockAs_trans (htu : t.sameBlockAs u) (hus : u.sameBlockAs s) : t.sameBlockAs s := by
  rw [State.sameBlockAs, hus] at htu
  exact htu

/-- The engine's turn serves the pending command (R114). -/
theorem step_of_engine_of_pending (hturn : s.turn = .engine) (hp : s.pend = some v) :
    step s = execute v s.turnTaken ∧ ∃ t, step s = .next t ∧ t.pend = none := by
  have he : step s = execute v s.turnTaken := by rw [step_of_engine hturn, engineTurn_some (s := s.turnTaken) hp]
  obtain ⟨t, ht⟩ := execute_next v s.turnTaken
  exact ⟨he, t, he.trans ht, (execute_outside ht).1⟩

/-- The host's turn discards the pending command by a reset, or leaves it waiting with the turn taken (R115, R261). -/
theorem step_of_host_of_pending (hturn : s.turn = .host) (hup : s.rstN = true) (hp : s.pend = some v) :
    ∃ t, step s = .next t ∧ ((t.pend = none ∧ ¬ s.resetFree) ∨
      (t.sameBlockAs s ∧ t.sched = s.sched.tail ∧ (s.resetFree → t.resetFree))) := by
  cases hops : s.host with
  | nil => exact ⟨s.turnTaken, (step_of_host hturn).trans (hostTurn_nil hops), .inr ⟨rfl, rfl, id⟩⟩
  | cons op rest =>
    obtain ⟨t, ht⟩ := hostOp_next (op := op) (s := { s with sched := s.sched.tail, host := rest }) fun _ => hup
    refine ⟨t, (step_of_host_cons hturn hops).trans ht, ?_⟩
    have hkeep : s.resetFree → t.resetFree := fun hfree => hostOp_resetFree hfree hops ht
    by_cases hop : ∃ level, op = .rstN level
    · obtain ⟨level, rfl⟩ := hop
      cases ht
      rcases State.driveReset_cases { s with sched := s.sched.tail, host := rest } level with
        ⟨-, -, e⟩ | ⟨-, e⟩ <;> rw [e] at hkeep ⊢
      · exact .inr ⟨rfl, rfl, hkeep⟩
      · exact .inl ⟨rfl, fun hfree => hfree (.rstN level) (by simp [hops]) level rfl⟩
    · have hblock := hostCannotDisturbPendingCommand _ t op (by simp [hp]) (not_exists.mp hop) ht
      exact .inr ⟨by rw [hblock]; rfl, by rw [hblock], hkeep⟩

/-- Within the turns of the schedule either a reset discards the pending command or the engine's turn finds it as it was. -/
theorem exists_run_of_pending (hup : s.rstN = true) (hp : s.pend = some v) :
    ∃ n ≤ s.sched.length, ∃ u, Sys2Proof.core.run n s = .next u ∧
      ((u.pend = none ∧ ¬ s.resetFree) ∨ (u.sameBlockAs s ∧ u.turn = .engine)) := by
  induction hn : s.sched.length generalizing s with
  | zero =>
    have hturn := State.turn_nil (List.eq_nil_of_length_eq_zero hn)
    exact ⟨0, le_rfl, s, rfl, .inr ⟨rfl, by simpa [State.busy, hp] using hturn⟩⟩
  | succ n ih =>
    cases hturn : s.turn with
    | engine => exact ⟨0, Nat.zero_le _, s, rfl, .inr ⟨rfl, hturn⟩⟩
    | host =>
      obtain ⟨t, ht, ⟨hnone, hreset⟩ | ⟨hblock, hsched, hkeep⟩⟩ := step_of_host_of_pending hturn hup hp
      · exact ⟨1, Nat.le_add_left _ _, t, run_succ_of_step ht 0, .inl ⟨hnone, hreset⟩⟩
      · have hup' : t.rstN = true := by rw [hblock]; exact hup
        have hp' : t.pend = some v := by rw [hblock]; exact hp
        obtain ⟨m, hm, u, hrun, hu⟩ := ih hup' hp' (by simp [hsched, hn])
        refine ⟨m + 1, Nat.succ_le_succ hm, u, (run_succ_of_step ht m).trans hrun, ?_⟩
        exact hu.imp (And.imp_right (mt hkeep)) (And.imp_left (State.sameBlockAs_trans · hblock))

/-- Settles O8: a reset discards the command within the schedule, or the engine's turn comes within it and serves it. -/
theorem pendingCommandIsServed : Obligations.PendingCommandIsServed := by
  intro s v hup hp
  obtain ⟨n, hn, u, hrun, ⟨hnone, hreset⟩ | ⟨hblock, hturn⟩⟩ := exists_run_of_pending hup hp
  · exact ⟨⟨n, Nat.le_succ_of_le hn, u, hrun, hnone⟩, fun hfree => absurd hfree hreset⟩
  · have hpu : u.pend = some v := by rw [hblock]; exact hp
    obtain ⟨he, t, ht, hnone⟩ := step_of_engine_of_pending hturn hpu
    exact ⟨⟨n + 1, Nat.succ_le_succ hn, t, run_succ_of_run hrun ht, hnone⟩,
      fun _ => ⟨n, hn, u, t, hrun, hblock, he, ht, hnone⟩⟩

/-! ### The end of a host program (R275) -/

/-- A bound on the steps a program out of reset still takes: each entry of the schedule is one turn, each operation one turn
of the host and, if it starts a command, one of the engine; so is a command pending already. -/
def State.work (s : State) : Nat := s.sched.length + 2 * s.host.length + s.busy.toNat

/-- Serving a command is one turn less to come. -/
theorem execute_work_lt (hp : s.pend = some v) (h : execute v s.turnTaken = .next t) : t.work < s.work := by
  obtain ⟨hpend, -, hhost, hsched, -⟩ := execute_outside h
  simp [State.work, State.busy, hp, hpend, hhost, hsched]

/-- A turn of the schedule in which nothing happens. -/
theorem State.turnTaken_work_lt (h : s.turn ≠ if s.busy then .engine else .host) : s.turnTaken.work < s.work := by
  simpa [State.work, State.busy] using State.length_tail_sched_lt h

/-- An operation taken off the list leaves at most one command to serve; a poll that stays on it has used up a turn of the
schedule. -/
theorem hostOp_work_lt (hturn : s.turn = .host) (hops : s.host = op :: rest) (hop : ∀ level, op ≠ .rstN level)
    (h : hostOp op { s with sched := s.sched.tail, host := rest } = .next t) : t.work < s.work := by
  rcases hostOp_host_cases h with hhost | ⟨rfl, hbusy, rfl⟩
  · obtain ⟨-, -, -, -, -, -, -, -, -, hsched⟩ := hostOp_frame hop h
    have hone := t.busy.toNat_le
    simp only [State.work, hsched, hhost, hops, List.length_tail, List.length_cons]
    omega
  · have hlt := State.length_tail_sched_lt (s := s) (by simp [hturn, show s.busy = true from hbusy])
    simpa [State.work, State.busy, hops] using hlt

/-- Until the program has ended, a step brings its end nearer. -/
theorem step_work_lt (hup : s.rstN = true) (hfree : s.resetFree) (hended : s.ended = false) :
    ∃ t, step s = .next t ∧ t.rstN = true ∧ t.resetFree ∧ t.work < s.work := by
  rcases step_cases s with ⟨hturn, e⟩ | ⟨hturn, e⟩
  · cases hp : s.pend with
    | none =>
      exact ⟨s.turnTaken, e.trans (engineTurn_none hp), hup, hfree,
        State.turnTaken_work_lt (by simp [hturn, State.busy, hp])⟩
    | some v =>
      obtain ⟨t, ht⟩ := execute_next v s.turnTaken
      obtain ⟨-, hrst, hhost, -⟩ := execute_outside ht
      exact ⟨t, (e.trans (engineTurn_some hp)).trans ht, hrst.trans hup, by rw [State.resetFree, hhost]; exact hfree,
        execute_work_lt hp ht⟩
  · cases hops : s.host with
    | nil =>
      have hbusy : s.busy = true := by simpa [State.ended, hops] using hended
      exact ⟨s.turnTaken, e.trans (hostTurn_nil hops), hup, hfree, State.turnTaken_work_lt (by simp [hturn, hbusy])⟩
    | cons op rest =>
      have hop : ∀ level, op ≠ .rstN level := hfree op (by simp [hops])
      obtain ⟨t, ht⟩ := hostOp_next (op := op) (s := { s with sched := s.sched.tail, host := rest }) fun _ => hup
      obtain ⟨-, -, hrst, -⟩ := hostOp_frame hop ht
      exact ⟨t, (step_of_host_cons hturn hops).trans ht, hrst.trans hup, hostOp_resetFree hfree hops ht,
        hostOp_work_lt hturn hops hop ht⟩

/-- A program out of reset, with no reset in it, ends within the work left. -/
theorem exists_run_ended (hup : s.rstN = true) (hfree : s.resetFree) :
    ∃ n ≤ s.work, ∃ t, Sys2Proof.core.run n s = .next t ∧ t.ended = true := by
  induction hm : s.work using Nat.strong_induction_on generalizing s with
  | h m ih =>
    cases hended : s.ended with
    | true => exact ⟨0, Nat.zero_le _, s, rfl, hended⟩
    | false =>
      obtain ⟨t, ht, hup', hfree', hlt⟩ := step_work_lt hup hfree hended
      obtain ⟨n, hn, u, hrun, hu⟩ := ih t.work (hm ▸ hlt) hup' hfree' rfl
      exact ⟨n + 1, by omega, u, (run_succ_of_step ht n).trans hrun, hu⟩

/-- Settles O9: every step until the end leaves less work, and the work at the start is within the bound. -/
theorem hostProgramEnds : Obligations.HostProgramEnds := by
  intro s hup hfree
  obtain ⟨n, hn, hrun⟩ := exists_run_ended hup hfree
  have hone := s.busy.toNat_le
  exact ⟨n, by rw [State.work] at hn; omega, hrun⟩

end Sys2Proof.Machine
end

section
/-! PROOFS. The decoder and the encoder are inverse to each other on the well-formed commands and the words the decoder accepts
(30_encoding.md R91 to R95, R97). -/

namespace Sys2Proof

variable {v : Word} {k : Nat} {i : Instr}

/-! ### Commands by their fields (R91, R94, R95) -/

theorem Instr.wellFormed_of_slot?_eq_none (h : i.slot? = none) : i.wellFormed = true := by
  rw [Instr.wellFormed, h]

theorem Instr.wellFormed_iff_of_slot?_eq_some (h : i.slot? = some k) : i.wellFormed = true ↔ k < 16 := by
  rw [Instr.wellFormed, h, decide_eq_true_iff]

/-- The INST field of a command that names no slot is 0. -/
theorem Instr.instBits_of_slot?_eq_none (h : i.slot? = none) : i.instBits = 0 := by
  rw [Instr.instBits, h]

/-- The INST field of a well-formed command loses nothing of its slot number. -/
theorem Instr.toNat_instBits_of_wellFormed (h : i.wellFormed = true) (hk : i.slot? = some k) : i.instBits.toNat = k := by
  have hlt : k < 2 ^ 4 := (Instr.wellFormed_iff_of_slot?_eq_some hk).mp h
  rw [Instr.instBits, hk, BitVec.toNat_ofNat, Nat.mod_eq_of_lt hlt]

/-- The opcode map gives a command back from its opcode and its slot number, which is not read where it names none. -/
theorem instrOf_opcode (h : ∀ j, i.slot? = some j → k = j) : instrOf i.opcode k = some i := by
  cases i
  case nop | fxTofix | fxFromfix | fxMul | fxNarrow => rfl
  all_goals exact h _ rfl ▸ rfl

theorem instrOf_opcode_instBits (h : i.wellFormed = true) : instrOf i.opcode i.instBits.toNat = some i :=
  instrOf_opcode fun _ => Instr.toNat_instBits_of_wellFormed h

/-! ### The round trips (R91, R92, R97) -/

theorem decode_encode (h : i.wellFormed = true) : decode (encode i) = .ok i := by
  have hi := instrOf_opcode_instBits h
  obtain ⟨-, -, hrsv0, hrsv1⟩ := commandWord_fields i.opcode i.instBits
  have hinst : isInstanceOp i.opcode ∨ i.instBits = 0 :=
    or_iff_not_imp_left.mpr fun hop => Instr.instBits_of_slot?_eq_none ((slot?_eq_none_iff_of_instrOf hi).mpr hop)
  rw [decode_eq_ok_iff, opField_encode, instField_encode]
  exact ⟨hi, hrsv0, hrsv1, hinst⟩

/-- The slot a decoded command names was read from the 4-bit INST field. -/
theorem wellFormed_of_decode (h : decode v = .ok i) : i.wellFormed = true := by
  cases hk : i.slot? with
  | none => exact Instr.wellFormed_of_slot?_eq_none hk
  | some k =>
    rw [Instr.wellFormed_iff_of_slot?_eq_some hk, ← slot_of_decode h hk]
    exact (instField v).isLt

/-- Settles O1: the word's fields meet the decoder's condition, and the opcode map takes them back to the command. -/
theorem decodeOfEncodeIsTheCommand : Obligations.DecodeOfEncodeIsTheCommand := fun _ => decode_encode

/-- Settles O2: the command's slot number fits INST, and its word agrees with the decoded word in all four fields. -/
theorem encodeOfDecodeIsTheWord : Obligations.EncodeOfDecodeIsTheWord :=
  fun _ _ h => ⟨wellFormed_of_decode h, encode_of_decode h⟩

end Sys2Proof
end
